-- ==== Sys2Proof/Word.lean ====
section
/-! DEFINITION. The word and byte types of the aqa-emu core and the arithmetic the spec takes for granted
(spec/00_scope.md R7, R11). -/

namespace Sys2Proof

/-- `u32`: a register, the pc, an address, an instruction word (R7, R11). -/
abbrev Word := BitVec 32

/-- One byte of the byte memory; also the packed flags byte (R7, R25). -/
abbrev Byte := BitVec 8

/-- A boolean as 0 or 1, for the carry that enters an exact integer sum (R125). -/
abbrev bit (b : Bool) : Int := if b then 1 else 0

end Sys2Proof
end

