-- ==== Sys2Proof/Config.lean ====
section
/-! DEFINITION. What the spec leaves to the implementation or to the host, as named parameters
(spec/00_scope.md R7, spec/92_eei_decisions.md, spec/93_implementation_defined.md). The launch parameters here are
the values `State.reset` is built with; `State.launch` takes any others as an argument. The core leaves no value
open at run time, so there is no free value. -/

namespace Sys2Proof.Config

/-- The two conventions 93_implementation_defined.md (Part 1, row 11) names for an immediate operand. -/
inductive ImmRotation where
  /-- `rotl32(zext_32(value), rotate)`: the default, which is rule R123. -/
  | rotlByField
  /-- `rotr32(zext_32(value), 2 * rotate)`: the one alternative, for matching an ARM-like reference. -/
  | rotrBy2xField
deriving DecidableEq, Repr

/-- `IMM_ROTATION`: the spec's default, D11 and R123 (log 7). -/
def immRotation : ImmRotation := .rotlByField

/-- What a byte of memory that nothing has written reads as. DESIGN CHOICE (log 4, unsafe): INIT_MEM is OPEN (R199);
0 is what every byte outside the program is after `serialize` (R46). -/
def unlistedByte : Byte := 0

/-- `MEM_SIZE` of the reset state. DESIGN CHOICE (log 5, unsafe): MEM_SIZE is OPEN, 0 to 2^32 (R31, D20). -/
def resetMemSize : Nat := 2 ^ 32

/-- `INIT_REGS` of the reset state. DESIGN CHOICE (logs 1 and 2, unsafe): OPEN (R199); the pc among them is the
spec's conventional entry point 0 (R201). -/
def resetRegs : Vector Word 16 := Vector.replicate 16 0

/-- `INIT_FLAGS` of the reset state, as a flags byte. DESIGN CHOICE (log 3, unsafe): OPEN (R199). -/
def resetFlagsByte : Byte := 0

end Sys2Proof.Config
end

