-- ==== Sys2Proof/Syntax.lean ====
section
/-! DEFINITION. The instruction as syntax: `Instr`, one constructor per row of spec/opcode_table.json, and the spec's own
closed sum type of Instruction values (spec/30_encoding.md R58), which it flattens. Every field has exactly the width the
encoding gives it, so every value of `Instr` is an instruction of the core and no other value exists (R58). -/

namespace Sys2Proof

/-- A register number, 0 to 15 (R15). 13 = SP, 14 = LR, 15 = PC (R14). -/
abbrev Reg := Fin 16

abbrev Reg.sp : Reg := 13
abbrev Reg.lr : Reg := 14
abbrev Reg.pc : Reg := 15

/-- The 15 named conditions (R51), in the order that fixes their codes (D3). -/
inductive Cond where
  | eq | ne | cs | cc | mi | pl | vs | vc | hi | ls | ge | lt | gt | le | al
deriving DecidableEq, Repr

/-- The 16 data-processing operations, in the order that fixes their codes (R56). -/
inductive Opcode where
  | and | eor | sub | rsb | add | adc | sbc | rsc | tst | teq | cmp | cmn | orr | mov | bic | mvn
deriving DecidableEq, Repr

/-- The four shift types (R57): LSL, LSR, ASR, ROR. -/
inductive ShiftType where
  | logicalLeft | logicalRight | arithmeticRight | rotateRight
deriving DecidableEq, Repr

/-- The second operand (R53, R54, R58). -/
inductive Operand where
  /-- `I = 1`: an 8-bit value and its 4-bit rotate field. -/
  | immediate (rotate : BitVec 4) (value : BitVec 8)
  /-- `I = 0`, `w[4] = 0`: `Rm` shifted by a 5-bit amount. -/
  | shiftByImm (type : ShiftType) (amount : BitVec 5) (rm : Reg)
  /-- `I = 0`, `w[4] = 1`: `Rm` shifted by the low byte of `Rs`. -/
  | shiftByReg (type : ShiftType) (rs rm : Reg)
deriving DecidableEq, Repr

/-- The body of an instruction: one of the two classes (R50, R58). -/
inductive Body where
  | dataProcessing (op : Opcode) (s : Bool) (rn rd : Reg) (operand : Operand)
  | branch (link : Bool) (offset : BitVec 24)
deriving DecidableEq, Repr

/-- The spec's Instruction value, "{condition, body}" (R58). -/
structure Instruction where
  cond : Cond
  body : Body
deriving DecidableEq, Repr

/-- One constructor per row of spec/opcode_table.json: 16 opcodes in three operand forms (`.imm`, `.rsi`, `.rsr`), B and BL.
The fields an opcode ignores are kept (R65): S everywhere, `rn` of MOV and MVN, `rd` of TST, TEQ, CMP and CMN. -/
inductive Instr where
  | andImm (cond : Cond) (s : Bool) (rn rd : Reg) (rotate : BitVec 4) (value : BitVec 8)
  | andRsi (cond : Cond) (s : Bool) (rn rd : Reg) (type : ShiftType) (amount : BitVec 5) (rm : Reg)
  | andRsr (cond : Cond) (s : Bool) (rn rd : Reg) (type : ShiftType) (rs rm : Reg)
  | eorImm (cond : Cond) (s : Bool) (rn rd : Reg) (rotate : BitVec 4) (value : BitVec 8)
  | eorRsi (cond : Cond) (s : Bool) (rn rd : Reg) (type : ShiftType) (amount : BitVec 5) (rm : Reg)
  | eorRsr (cond : Cond) (s : Bool) (rn rd : Reg) (type : ShiftType) (rs rm : Reg)
  | subImm (cond : Cond) (s : Bool) (rn rd : Reg) (rotate : BitVec 4) (value : BitVec 8)
  | subRsi (cond : Cond) (s : Bool) (rn rd : Reg) (type : ShiftType) (amount : BitVec 5) (rm : Reg)
  | subRsr (cond : Cond) (s : Bool) (rn rd : Reg) (type : ShiftType) (rs rm : Reg)
  | rsbImm (cond : Cond) (s : Bool) (rn rd : Reg) (rotate : BitVec 4) (value : BitVec 8)
  | rsbRsi (cond : Cond) (s : Bool) (rn rd : Reg) (type : ShiftType) (amount : BitVec 5) (rm : Reg)
  | rsbRsr (cond : Cond) (s : Bool) (rn rd : Reg) (type : ShiftType) (rs rm : Reg)
  | addImm (cond : Cond) (s : Bool) (rn rd : Reg) (rotate : BitVec 4) (value : BitVec 8)
  | addRsi (cond : Cond) (s : Bool) (rn rd : Reg) (type : ShiftType) (amount : BitVec 5) (rm : Reg)
  | addRsr (cond : Cond) (s : Bool) (rn rd : Reg) (type : ShiftType) (rs rm : Reg)
  | adcImm (cond : Cond) (s : Bool) (rn rd : Reg) (rotate : BitVec 4) (value : BitVec 8)
  | adcRsi (cond : Cond) (s : Bool) (rn rd : Reg) (type : ShiftType) (amount : BitVec 5) (rm : Reg)
  | adcRsr (cond : Cond) (s : Bool) (rn rd : Reg) (type : ShiftType) (rs rm : Reg)
  | sbcImm (cond : Cond) (s : Bool) (rn rd : Reg) (rotate : BitVec 4) (value : BitVec 8)
  | sbcRsi (cond : Cond) (s : Bool) (rn rd : Reg) (type : ShiftType) (amount : BitVec 5) (rm : Reg)
  | sbcRsr (cond : Cond) (s : Bool) (rn rd : Reg) (type : ShiftType) (rs rm : Reg)
  | rscImm (cond : Cond) (s : Bool) (rn rd : Reg) (rotate : BitVec 4) (value : BitVec 8)
  | rscRsi (cond : Cond) (s : Bool) (rn rd : Reg) (type : ShiftType) (amount : BitVec 5) (rm : Reg)
  | rscRsr (cond : Cond) (s : Bool) (rn rd : Reg) (type : ShiftType) (rs rm : Reg)
  | tstImm (cond : Cond) (s : Bool) (rn rd : Reg) (rotate : BitVec 4) (value : BitVec 8)
  | tstRsi (cond : Cond) (s : Bool) (rn rd : Reg) (type : ShiftType) (amount : BitVec 5) (rm : Reg)
  | tstRsr (cond : Cond) (s : Bool) (rn rd : Reg) (type : ShiftType) (rs rm : Reg)
  | teqImm (cond : Cond) (s : Bool) (rn rd : Reg) (rotate : BitVec 4) (value : BitVec 8)
  | teqRsi (cond : Cond) (s : Bool) (rn rd : Reg) (type : ShiftType) (amount : BitVec 5) (rm : Reg)
  | teqRsr (cond : Cond) (s : Bool) (rn rd : Reg) (type : ShiftType) (rs rm : Reg)
  | cmpImm (cond : Cond) (s : Bool) (rn rd : Reg) (rotate : BitVec 4) (value : BitVec 8)
  | cmpRsi (cond : Cond) (s : Bool) (rn rd : Reg) (type : ShiftType) (amount : BitVec 5) (rm : Reg)
  | cmpRsr (cond : Cond) (s : Bool) (rn rd : Reg) (type : ShiftType) (rs rm : Reg)
  | cmnImm (cond : Cond) (s : Bool) (rn rd : Reg) (rotate : BitVec 4) (value : BitVec 8)
  | cmnRsi (cond : Cond) (s : Bool) (rn rd : Reg) (type : ShiftType) (amount : BitVec 5) (rm : Reg)
  | cmnRsr (cond : Cond) (s : Bool) (rn rd : Reg) (type : ShiftType) (rs rm : Reg)
  | orrImm (cond : Cond) (s : Bool) (rn rd : Reg) (rotate : BitVec 4) (value : BitVec 8)
  | orrRsi (cond : Cond) (s : Bool) (rn rd : Reg) (type : ShiftType) (amount : BitVec 5) (rm : Reg)
  | orrRsr (cond : Cond) (s : Bool) (rn rd : Reg) (type : ShiftType) (rs rm : Reg)
  | movImm (cond : Cond) (s : Bool) (rn rd : Reg) (rotate : BitVec 4) (value : BitVec 8)
  | movRsi (cond : Cond) (s : Bool) (rn rd : Reg) (type : ShiftType) (amount : BitVec 5) (rm : Reg)
  | movRsr (cond : Cond) (s : Bool) (rn rd : Reg) (type : ShiftType) (rs rm : Reg)
  | bicImm (cond : Cond) (s : Bool) (rn rd : Reg) (rotate : BitVec 4) (value : BitVec 8)
  | bicRsi (cond : Cond) (s : Bool) (rn rd : Reg) (type : ShiftType) (amount : BitVec 5) (rm : Reg)
  | bicRsr (cond : Cond) (s : Bool) (rn rd : Reg) (type : ShiftType) (rs rm : Reg)
  | mvnImm (cond : Cond) (s : Bool) (rn rd : Reg) (rotate : BitVec 4) (value : BitVec 8)
  | mvnRsi (cond : Cond) (s : Bool) (rn rd : Reg) (type : ShiftType) (amount : BitVec 5) (rm : Reg)
  | mvnRsr (cond : Cond) (s : Bool) (rn rd : Reg) (type : ShiftType) (rs rm : Reg)
  | b (cond : Cond) (offset : BitVec 24)
  | bl (cond : Cond) (offset : BitVec 24)
deriving DecidableEq, Repr

end Sys2Proof
end

