-- ==== Sys2Proof/WellFormed.lean ====
section
/-! DEFINITION. What the codec and the loader check. An `Instr` needs no check of its own: every field has its encoded width
(spec/30_encoding.md R58: "Every value of this type is representable, and no other value exists"), so the checks are about
words (R61, R62, R64) and about a program that is to be laid in a buffer (spec/20_memory.md R46). -/

namespace Sys2Proof

/-- Every `Instr` is well-formed (R58); register numbers above 15 cannot be written (R15, R182). -/
def Instr.wellFormed (_ : Instr) : Bool := true

/-- The condition field is assigned: code 15 is invalid (R51, R61). -/
def condLegal (w : Word) : Bool := w.extractLsb' 28 4 != 0b1111#4

/-- The class field is not reserved: 01 and 11 are (R50, R61). -/
def classLegal (w : Word) : Bool := w.extractLsb' 26 2 == 0b00#2 || w.extractLsb' 26 2 == 0b10#2

/-- The words `Decode` accepts: "Every other word decodes" (R61, R69). -/
def wordLegal (w : Word) : Bool := condLegal w && classLegal w

/-- The word is of the by-register shift form: class 00, `I = 0`, `w[4] = 1` (R54). -/
def isShiftByRegForm (w : Word) : Bool := w.extractLsb' 26 2 == 0b00#2 && !w.getLsbD 25 && w.getLsbD 4

/-- The word is of the Branch form: class 10 (R55). -/
def isBranchForm (w : Word) : Bool := w.extractLsb' 26 2 == 0b10#2

/-- The bits of the word's form that carry no field: `w[7]` of the by-register shift form, `w[0]` of the Branch form (R62). -/
def ignoredBits (w : Word) : Word :=
  if isShiftByRegForm w then 0x00000080#32 else if isBranchForm w then 0x00000001#32 else 0#32

/-- A legal word with 0 in every ignored bit: exactly the words `Encode` writes (R62, R64). -/
def wordCanonical (w : Word) : Bool := wordLegal w && (w &&& ignoredBits w == 0#32)

/-- A program fits a buffer of `size` bytes: `4 * len(Program) <= size` (R46). -/
def programFits (p : List Instr) (size : Nat) : Bool := decide (4 * p.length ≤ size)

end Sys2Proof
end

