-- ==== Sys2Proof/Decode.lean ====
section
/-! DEFINITION. The instruction_codec: `decode`, total on every word, with its two errors, and `encode`, total on every
instruction (spec/30_encoding.md R48 to R70). Both are written on the spec's Instruction value (R58) from the tables of
R49 to R57 and carried to `Instr` by the two maps between the types. The opcode table of spec/opcode_table.json stands at the
end, as data. -/

namespace Sys2Proof

/-! ## Value tables -/

/-- The code of a condition is its place in the list (R51, D3). -/
def Cond.code : Cond → BitVec 4
  | .eq => 0#4
  | .ne => 1#4
  | .cs => 2#4
  | .cc => 3#4
  | .mi => 4#4
  | .pl => 5#4
  | .vs => 6#4
  | .vc => 7#4
  | .hi => 8#4
  | .ls => 9#4
  | .ge => 10#4
  | .lt => 11#4
  | .gt => 12#4
  | .le => 13#4
  | .al => 14#4

/-- The condition with a code; code 15 is unassigned (R51). -/
def Cond.ofCode (c : BitVec 4) : Option Cond :=
  match c.toNat with
  | 0 => some .eq
  | 1 => some .ne
  | 2 => some .cs
  | 3 => some .cc
  | 4 => some .mi
  | 5 => some .pl
  | 6 => some .vs
  | 7 => some .vc
  | 8 => some .hi
  | 9 => some .ls
  | 10 => some .ge
  | 11 => some .lt
  | 12 => some .gt
  | 13 => some .le
  | 14 => some .al
  | _ => none

/-- The code of an opcode is its place in the enumeration (R56). -/
def Opcode.code : Opcode → BitVec 4
  | .and => 0#4
  | .eor => 1#4
  | .sub => 2#4
  | .rsb => 3#4
  | .add => 4#4
  | .adc => 5#4
  | .sbc => 6#4
  | .rsc => 7#4
  | .tst => 8#4
  | .teq => 9#4
  | .cmp => 10#4
  | .cmn => 11#4
  | .orr => 12#4
  | .mov => 13#4
  | .bic => 14#4
  | .mvn => 15#4

/-- The opcode with a code: "All 16 codes are assigned" (R56). -/
def Opcode.ofCode (c : BitVec 4) : Opcode :=
  match c.toNat with
  | 0 => .and
  | 1 => .eor
  | 2 => .sub
  | 3 => .rsb
  | 4 => .add
  | 5 => .adc
  | 6 => .sbc
  | 7 => .rsc
  | 8 => .tst
  | 9 => .teq
  | 10 => .cmp
  | 11 => .cmn
  | 12 => .orr
  | 13 => .mov
  | 14 => .bic
  | _ => .mvn

/-- The code of a shift type (R57, D4). -/
def ShiftType.code : ShiftType → BitVec 2
  | .logicalLeft => 0b00#2
  | .logicalRight => 0b01#2
  | .arithmeticRight => 0b10#2
  | .rotateRight => 0b11#2

/-- The shift type with a code: "All four codes are assigned" (R57). -/
def ShiftType.ofCode (c : BitVec 2) : ShiftType :=
  match c.toNat with
  | 0 => .logicalLeft
  | 1 => .logicalRight
  | 2 => .arithmeticRight
  | _ => .rotateRight

/-- A register field as the number it holds: every value is a register (R52). -/
def regOfBits (b : BitVec 4) : Reg := ⟨b.toNat, b.isLt⟩

/-- A register number as its 4-bit field (R52). -/
def regBits (r : Reg) : BitVec 4 := BitVec.ofNat 4 r.val

/-! ## Instr and the Instruction value -/

/-- The constructor for an opcode in the immediate form. -/
def instrImm (op : Opcode) (c : Cond) (s : Bool) (rn rd : Reg) (rotate : BitVec 4) (value : BitVec 8) : Instr :=
  match op with
  | .and => .andImm c s rn rd rotate value
  | .eor => .eorImm c s rn rd rotate value
  | .sub => .subImm c s rn rd rotate value
  | .rsb => .rsbImm c s rn rd rotate value
  | .add => .addImm c s rn rd rotate value
  | .adc => .adcImm c s rn rd rotate value
  | .sbc => .sbcImm c s rn rd rotate value
  | .rsc => .rscImm c s rn rd rotate value
  | .tst => .tstImm c s rn rd rotate value
  | .teq => .teqImm c s rn rd rotate value
  | .cmp => .cmpImm c s rn rd rotate value
  | .cmn => .cmnImm c s rn rd rotate value
  | .orr => .orrImm c s rn rd rotate value
  | .mov => .movImm c s rn rd rotate value
  | .bic => .bicImm c s rn rd rotate value
  | .mvn => .mvnImm c s rn rd rotate value

/-- The constructor for an opcode in the form shifted by an immediate. -/
def instrRsi (op : Opcode) (c : Cond) (s : Bool) (rn rd : Reg) (type : ShiftType) (amount : BitVec 5) (rm : Reg) : Instr :=
  match op with
  | .and => .andRsi c s rn rd type amount rm
  | .eor => .eorRsi c s rn rd type amount rm
  | .sub => .subRsi c s rn rd type amount rm
  | .rsb => .rsbRsi c s rn rd type amount rm
  | .add => .addRsi c s rn rd type amount rm
  | .adc => .adcRsi c s rn rd type amount rm
  | .sbc => .sbcRsi c s rn rd type amount rm
  | .rsc => .rscRsi c s rn rd type amount rm
  | .tst => .tstRsi c s rn rd type amount rm
  | .teq => .teqRsi c s rn rd type amount rm
  | .cmp => .cmpRsi c s rn rd type amount rm
  | .cmn => .cmnRsi c s rn rd type amount rm
  | .orr => .orrRsi c s rn rd type amount rm
  | .mov => .movRsi c s rn rd type amount rm
  | .bic => .bicRsi c s rn rd type amount rm
  | .mvn => .mvnRsi c s rn rd type amount rm

/-- The constructor for an opcode in the form shifted by a register. -/
def instrRsr (op : Opcode) (c : Cond) (s : Bool) (rn rd : Reg) (type : ShiftType) (rs rm : Reg) : Instr :=
  match op with
  | .and => .andRsr c s rn rd type rs rm
  | .eor => .eorRsr c s rn rd type rs rm
  | .sub => .subRsr c s rn rd type rs rm
  | .rsb => .rsbRsr c s rn rd type rs rm
  | .add => .addRsr c s rn rd type rs rm
  | .adc => .adcRsr c s rn rd type rs rm
  | .sbc => .sbcRsr c s rn rd type rs rm
  | .rsc => .rscRsr c s rn rd type rs rm
  | .tst => .tstRsr c s rn rd type rs rm
  | .teq => .teqRsr c s rn rd type rs rm
  | .cmp => .cmpRsr c s rn rd type rs rm
  | .cmn => .cmnRsr c s rn rd type rs rm
  | .orr => .orrRsr c s rn rd type rs rm
  | .mov => .movRsr c s rn rd type rs rm
  | .bic => .bicRsr c s rn rd type rs rm
  | .mvn => .mvnRsr c s rn rd type rs rm

/-- The `Instr` an Instruction value (R58) stands for. -/
def Instr.ofInstruction (i : Instruction) : Instr :=
  match i.body with
  | .dataProcessing op s rn rd (.immediate rotate value) => instrImm op i.cond s rn rd rotate value
  | .dataProcessing op s rn rd (.shiftByImm type amount rm) => instrRsi op i.cond s rn rd type amount rm
  | .dataProcessing op s rn rd (.shiftByReg type rs rm) => instrRsr op i.cond s rn rd type rs rm
  | .branch false offset => .b i.cond offset
  | .branch true offset => .bl i.cond offset

/-- The Instruction value (R58) of an `Instr`. -/
def Instr.toInstruction : Instr → Instruction
  | .andImm c s rn rd rotate value => ⟨c, .dataProcessing .and s rn rd (.immediate rotate value)⟩
  | .andRsi c s rn rd type amount rm => ⟨c, .dataProcessing .and s rn rd (.shiftByImm type amount rm)⟩
  | .andRsr c s rn rd type rs rm => ⟨c, .dataProcessing .and s rn rd (.shiftByReg type rs rm)⟩
  | .eorImm c s rn rd rotate value => ⟨c, .dataProcessing .eor s rn rd (.immediate rotate value)⟩
  | .eorRsi c s rn rd type amount rm => ⟨c, .dataProcessing .eor s rn rd (.shiftByImm type amount rm)⟩
  | .eorRsr c s rn rd type rs rm => ⟨c, .dataProcessing .eor s rn rd (.shiftByReg type rs rm)⟩
  | .subImm c s rn rd rotate value => ⟨c, .dataProcessing .sub s rn rd (.immediate rotate value)⟩
  | .subRsi c s rn rd type amount rm => ⟨c, .dataProcessing .sub s rn rd (.shiftByImm type amount rm)⟩
  | .subRsr c s rn rd type rs rm => ⟨c, .dataProcessing .sub s rn rd (.shiftByReg type rs rm)⟩
  | .rsbImm c s rn rd rotate value => ⟨c, .dataProcessing .rsb s rn rd (.immediate rotate value)⟩
  | .rsbRsi c s rn rd type amount rm => ⟨c, .dataProcessing .rsb s rn rd (.shiftByImm type amount rm)⟩
  | .rsbRsr c s rn rd type rs rm => ⟨c, .dataProcessing .rsb s rn rd (.shiftByReg type rs rm)⟩
  | .addImm c s rn rd rotate value => ⟨c, .dataProcessing .add s rn rd (.immediate rotate value)⟩
  | .addRsi c s rn rd type amount rm => ⟨c, .dataProcessing .add s rn rd (.shiftByImm type amount rm)⟩
  | .addRsr c s rn rd type rs rm => ⟨c, .dataProcessing .add s rn rd (.shiftByReg type rs rm)⟩
  | .adcImm c s rn rd rotate value => ⟨c, .dataProcessing .adc s rn rd (.immediate rotate value)⟩
  | .adcRsi c s rn rd type amount rm => ⟨c, .dataProcessing .adc s rn rd (.shiftByImm type amount rm)⟩
  | .adcRsr c s rn rd type rs rm => ⟨c, .dataProcessing .adc s rn rd (.shiftByReg type rs rm)⟩
  | .sbcImm c s rn rd rotate value => ⟨c, .dataProcessing .sbc s rn rd (.immediate rotate value)⟩
  | .sbcRsi c s rn rd type amount rm => ⟨c, .dataProcessing .sbc s rn rd (.shiftByImm type amount rm)⟩
  | .sbcRsr c s rn rd type rs rm => ⟨c, .dataProcessing .sbc s rn rd (.shiftByReg type rs rm)⟩
  | .rscImm c s rn rd rotate value => ⟨c, .dataProcessing .rsc s rn rd (.immediate rotate value)⟩
  | .rscRsi c s rn rd type amount rm => ⟨c, .dataProcessing .rsc s rn rd (.shiftByImm type amount rm)⟩
  | .rscRsr c s rn rd type rs rm => ⟨c, .dataProcessing .rsc s rn rd (.shiftByReg type rs rm)⟩
  | .tstImm c s rn rd rotate value => ⟨c, .dataProcessing .tst s rn rd (.immediate rotate value)⟩
  | .tstRsi c s rn rd type amount rm => ⟨c, .dataProcessing .tst s rn rd (.shiftByImm type amount rm)⟩
  | .tstRsr c s rn rd type rs rm => ⟨c, .dataProcessing .tst s rn rd (.shiftByReg type rs rm)⟩
  | .teqImm c s rn rd rotate value => ⟨c, .dataProcessing .teq s rn rd (.immediate rotate value)⟩
  | .teqRsi c s rn rd type amount rm => ⟨c, .dataProcessing .teq s rn rd (.shiftByImm type amount rm)⟩
  | .teqRsr c s rn rd type rs rm => ⟨c, .dataProcessing .teq s rn rd (.shiftByReg type rs rm)⟩
  | .cmpImm c s rn rd rotate value => ⟨c, .dataProcessing .cmp s rn rd (.immediate rotate value)⟩
  | .cmpRsi c s rn rd type amount rm => ⟨c, .dataProcessing .cmp s rn rd (.shiftByImm type amount rm)⟩
  | .cmpRsr c s rn rd type rs rm => ⟨c, .dataProcessing .cmp s rn rd (.shiftByReg type rs rm)⟩
  | .cmnImm c s rn rd rotate value => ⟨c, .dataProcessing .cmn s rn rd (.immediate rotate value)⟩
  | .cmnRsi c s rn rd type amount rm => ⟨c, .dataProcessing .cmn s rn rd (.shiftByImm type amount rm)⟩
  | .cmnRsr c s rn rd type rs rm => ⟨c, .dataProcessing .cmn s rn rd (.shiftByReg type rs rm)⟩
  | .orrImm c s rn rd rotate value => ⟨c, .dataProcessing .orr s rn rd (.immediate rotate value)⟩
  | .orrRsi c s rn rd type amount rm => ⟨c, .dataProcessing .orr s rn rd (.shiftByImm type amount rm)⟩
  | .orrRsr c s rn rd type rs rm => ⟨c, .dataProcessing .orr s rn rd (.shiftByReg type rs rm)⟩
  | .movImm c s rn rd rotate value => ⟨c, .dataProcessing .mov s rn rd (.immediate rotate value)⟩
  | .movRsi c s rn rd type amount rm => ⟨c, .dataProcessing .mov s rn rd (.shiftByImm type amount rm)⟩
  | .movRsr c s rn rd type rs rm => ⟨c, .dataProcessing .mov s rn rd (.shiftByReg type rs rm)⟩
  | .bicImm c s rn rd rotate value => ⟨c, .dataProcessing .bic s rn rd (.immediate rotate value)⟩
  | .bicRsi c s rn rd type amount rm => ⟨c, .dataProcessing .bic s rn rd (.shiftByImm type amount rm)⟩
  | .bicRsr c s rn rd type rs rm => ⟨c, .dataProcessing .bic s rn rd (.shiftByReg type rs rm)⟩
  | .mvnImm c s rn rd rotate value => ⟨c, .dataProcessing .mvn s rn rd (.immediate rotate value)⟩
  | .mvnRsi c s rn rd type amount rm => ⟨c, .dataProcessing .mvn s rn rd (.shiftByImm type amount rm)⟩
  | .mvnRsr c s rn rd type rs rm => ⟨c, .dataProcessing .mvn s rn rd (.shiftByReg type rs rm)⟩
  | .b c offset => ⟨c, .branch false offset⟩
  | .bl c offset => ⟨c, .branch true offset⟩

/-- The condition of an instruction. -/
def Instr.cond (i : Instr) : Cond := i.toInstruction.cond

/-! ## Encode -/

/-- The I bit and the 12 operand bits (R52 to R54, R59); the reserved bit `w[7]` of the by-register form is written 0 (R62). -/
def encodeOperand : Operand → Bool × BitVec 12
  | .immediate rotate value => (true, rotate ++ value)
  | .shiftByImm type amount rm => (false, amount ++ type.code ++ 0#1 ++ regBits rm)
  | .shiftByReg type rs rm => (false, regBits rs ++ 0#1 ++ type.code ++ 1#1 ++ regBits rm)

/-- The 26 bits below the class field, with the class field above them (R50, R52, R55, R59). -/
def encodeBody : Body → BitVec 28
  | .dataProcessing op s rn rd operand =>
    0b00#2 ++ BitVec.ofBool (encodeOperand operand).1 ++ op.code ++ BitVec.ofBool s ++ regBits rn ++ regBits rd
      ++ (encodeOperand operand).2
  | .branch link offset => 0b10#2 ++ BitVec.ofBool link ++ offset ++ 0#1

/-- `Encode` of R59, most significant field first. -/
def encodeInstruction (i : Instruction) : Word := i.cond.code ++ encodeBody i.body

/-- `Encode`: the word of an instruction (R59). -/
def encode (i : Instr) : Word := encodeInstruction i.toInstruction

/-! ## Decode -/

/-- The two ways decoding fails (R61). -/
inductive DecodeError where
  /-- `w[31:28] = 1111`; checked first (D6). -/
  | invalidCondition
  /-- `w[27:26]` is 01 or 11. -/
  | reservedClass
deriving DecidableEq, Repr

/-- The second operand of a data-processing word (R53, R54, R60); `w[7]` of the by-register form is not read (R62). -/
def decodeOperand (w : Word) : Operand :=
  if w.getLsbD 25 then .immediate (w.extractLsb' 8 4) (w.extractLsb' 0 8)
  else if w.getLsbD 4 then
    .shiftByReg (ShiftType.ofCode (w.extractLsb' 5 2)) (regOfBits (w.extractLsb' 8 4)) (regOfBits (w.extractLsb' 0 4))
  else
    .shiftByImm (ShiftType.ofCode (w.extractLsb' 5 2)) (w.extractLsb' 7 5) (regOfBits (w.extractLsb' 0 4))

/-- The body by its class (R50, R60); `w[0]` of a branch is not read (R62). -/
def decodeBody (w : Word) : Except DecodeError Body :=
  match (w.extractLsb' 26 2).toNat with
  | 0 => .ok (.dataProcessing (Opcode.ofCode (w.extractLsb' 21 4)) (w.getLsbD 20)
      (regOfBits (w.extractLsb' 16 4)) (regOfBits (w.extractLsb' 12 4)) (decodeOperand w))
  | 2 => .ok (.branch (w.getLsbD 25) (w.extractLsb' 1 24))
  | _ => .error .reservedClass

/-- `Decode` of R60: the condition field first, then the class (D6). -/
def decodeInstruction (w : Word) : Except DecodeError Instruction :=
  match Cond.ofCode (w.extractLsb' 28 4) with
  | none => .error .invalidCondition
  | some c =>
    match decodeBody w with
    | .ok body => .ok ⟨c, body⟩
    | .error e => .error e

/-- `Decode`: the instruction of a word, or the reason it has none (R60, R61). -/
def decode (w : Word) : Except DecodeError Instr :=
  match decodeInstruction w with
  | .ok i => .ok (Instr.ofInstruction i)
  | .error e => .error e

/-! ## Words as bytes -/

/-- A word from its four bytes, the lowest address first: big-endian (spec/20_memory.md R34, D1). -/
def wordOfBytes (b0 b1 b2 b3 : Byte) : Word := b0 ++ b1 ++ b2 ++ b3

/-- Byte `k` of a word as it lies in memory: byte 0, at the lowest address, is `w[31:24]` (R34). -/
def byteOfWord (w : Word) (k : Nat) : Byte := w.extractLsb' (24 - 8 * k) 8

/-- The four bytes of a word in address order (R34, R46). -/
def bytesOfWord (w : Word) : List Byte := [byteOfWord w 0, byteOfWord w 1, byteOfWord w 2, byteOfWord w 3]

/-- Why a byte string does not begin with an instruction. -/
inductive BytesError where
  /-- Fewer than four bytes are left (the model's own name, log 17). -/
  | truncated
  /-- The first four bytes are no instruction (R61). -/
  | word (e : DecodeError)
deriving DecidableEq, Repr

/-- Decoding on any bytes: the instruction of the first four and the bytes after them (R34, R48, R60). -/
def decodeBytes : List Byte → Except BytesError (Instr × List Byte)
  | b0 :: b1 :: b2 :: b3 :: rest =>
    match decode (wordOfBytes b0 b1 b2 b3) with
    | .ok i => .ok (i, rest)
    | .error e => .error (.word e)
  | _ => .error .truncated

/-- The word whose bits are `w`, of which only the lowest `nbits` count (the numbering of spec/opcode_table.json, log 18). -/
def tableWord (nbits w : Nat) : Word := BitVec.ofNat 32 (w % 2 ^ nbits)

/-- The instruction the decoder reads from a word of the opcode table, laid out as it lies in memory. -/
def decodeTableWord (nbits w : Nat) : Option Instr :=
  match decodeBytes (bytesOfWord (tableWord nbits w)) with
  | .ok (i, _) => some i
  | .error _ => none

/-! ## The opcode table -/

/-- Which row of spec/opcode_table.json: an opcode in one of its three forms (`.imm`, `.rsi`, `.rsr`), B or BL. -/
inductive RowName where
  | imm (op : Opcode)
  | rsi (op : Opcode)
  | rsr (op : Opcode)
  | b
  | bl
deriving DecidableEq, Repr

/-- The row an instruction belongs to. -/
def Instr.row (i : Instr) : RowName :=
  match i.toInstruction.body with
  | .dataProcessing op _ _ _ (.immediate _ _) => .imm op
  | .dataProcessing op _ _ _ (.shiftByImm _ _ _) => .rsi op
  | .dataProcessing op _ _ _ (.shiftByReg _ _ _) => .rsr op
  | .branch false _ => .b
  | .branch true _ => .bl

/-- A row of the table: a word belongs to it when `w & mask == match` and `w[31:28] != 1111`. -/
structure OpcodeRow where
  name : RowName
  pattern : Word
  mask : Word
deriving DecidableEq, Repr

/-- A word matches a row (spec/30_encoding.md, "How to read opcode_table.json"). -/
def OpcodeRow.matchesWord (r : OpcodeRow) (w : Word) : Bool := w &&& r.mask == r.pattern && condLegal w

/-- The rows of AND, EOR, ORR, BIC. -/
def opcodeRowsLogical : List OpcodeRow :=
  [⟨.imm .and, 0x02000000#32, 0x0FE00000#32⟩,
   ⟨.rsi .and, 0x00000000#32, 0x0FE00010#32⟩,
   ⟨.rsr .and, 0x00000010#32, 0x0FE00010#32⟩] ++
  [⟨.imm .eor, 0x02200000#32, 0x0FE00000#32⟩,
   ⟨.rsi .eor, 0x00200000#32, 0x0FE00010#32⟩,
   ⟨.rsr .eor, 0x00200010#32, 0x0FE00010#32⟩] ++
  [⟨.imm .orr, 0x03800000#32, 0x0FE00000#32⟩,
   ⟨.rsi .orr, 0x01800000#32, 0x0FE00010#32⟩,
   ⟨.rsr .orr, 0x01800010#32, 0x0FE00010#32⟩] ++
  [⟨.imm .bic, 0x03C00000#32, 0x0FE00000#32⟩,
   ⟨.rsi .bic, 0x01C00000#32, 0x0FE00010#32⟩,
   ⟨.rsr .bic, 0x01C00010#32, 0x0FE00010#32⟩]

/-- The rows of SUB, RSB, ADD, ADC, SBC, RSC. -/
def opcodeRowsArithmetic : List OpcodeRow :=
  [⟨.imm .sub, 0x02400000#32, 0x0FE00000#32⟩,
   ⟨.rsi .sub, 0x00400000#32, 0x0FE00010#32⟩,
   ⟨.rsr .sub, 0x00400010#32, 0x0FE00010#32⟩] ++
  [⟨.imm .rsb, 0x02600000#32, 0x0FE00000#32⟩,
   ⟨.rsi .rsb, 0x00600000#32, 0x0FE00010#32⟩,
   ⟨.rsr .rsb, 0x00600010#32, 0x0FE00010#32⟩] ++
  [⟨.imm .add, 0x02800000#32, 0x0FE00000#32⟩,
   ⟨.rsi .add, 0x00800000#32, 0x0FE00010#32⟩,
   ⟨.rsr .add, 0x00800010#32, 0x0FE00010#32⟩] ++
  [⟨.imm .adc, 0x02A00000#32, 0x0FE00000#32⟩,
   ⟨.rsi .adc, 0x00A00000#32, 0x0FE00010#32⟩,
   ⟨.rsr .adc, 0x00A00010#32, 0x0FE00010#32⟩] ++
  [⟨.imm .sbc, 0x02C00000#32, 0x0FE00000#32⟩,
   ⟨.rsi .sbc, 0x00C00000#32, 0x0FE00010#32⟩,
   ⟨.rsr .sbc, 0x00C00010#32, 0x0FE00010#32⟩] ++
  [⟨.imm .rsc, 0x02E00000#32, 0x0FE00000#32⟩,
   ⟨.rsi .rsc, 0x00E00000#32, 0x0FE00010#32⟩,
   ⟨.rsr .rsc, 0x00E00010#32, 0x0FE00010#32⟩]

/-- The rows of TST, TEQ, CMP, CMN. -/
def opcodeRowsCompare : List OpcodeRow :=
  [⟨.imm .tst, 0x03000000#32, 0x0FE00000#32⟩,
   ⟨.rsi .tst, 0x01000000#32, 0x0FE00010#32⟩,
   ⟨.rsr .tst, 0x01000010#32, 0x0FE00010#32⟩] ++
  [⟨.imm .teq, 0x03200000#32, 0x0FE00000#32⟩,
   ⟨.rsi .teq, 0x01200000#32, 0x0FE00010#32⟩,
   ⟨.rsr .teq, 0x01200010#32, 0x0FE00010#32⟩] ++
  [⟨.imm .cmp, 0x03400000#32, 0x0FE00000#32⟩,
   ⟨.rsi .cmp, 0x01400000#32, 0x0FE00010#32⟩,
   ⟨.rsr .cmp, 0x01400010#32, 0x0FE00010#32⟩] ++
  [⟨.imm .cmn, 0x03600000#32, 0x0FE00000#32⟩,
   ⟨.rsi .cmn, 0x01600000#32, 0x0FE00010#32⟩,
   ⟨.rsr .cmn, 0x01600010#32, 0x0FE00010#32⟩]

/-- The rows of MOV, MVN. -/
def opcodeRowsMove : List OpcodeRow :=
  [⟨.imm .mov, 0x03A00000#32, 0x0FE00000#32⟩,
   ⟨.rsi .mov, 0x01A00000#32, 0x0FE00010#32⟩,
   ⟨.rsr .mov, 0x01A00010#32, 0x0FE00010#32⟩] ++
  [⟨.imm .mvn, 0x03E00000#32, 0x0FE00000#32⟩,
   ⟨.rsi .mvn, 0x01E00000#32, 0x0FE00010#32⟩,
   ⟨.rsr .mvn, 0x01E00010#32, 0x0FE00010#32⟩]

/-- The rows of B and BL. -/
def opcodeRowsBranch : List OpcodeRow :=
  [⟨.b, 0x08000000#32, 0x0E000000#32⟩,
   ⟨.bl, 0x0A000000#32, 0x0E000000#32⟩]

/-- spec/opcode_table.json, all 50 rows, by family. -/
def opcodeTable : List OpcodeRow :=
  opcodeRowsLogical ++ opcodeRowsArithmetic ++ opcodeRowsCompare ++ opcodeRowsMove ++ opcodeRowsBranch

end Sys2Proof
end

