-- ==== Sys2Proof/Machine/State.lean ====
section
/-! DEFINITION. The ProcessorState (spec/10_state.md R28: "the triple (mem, x[0..15], {N,Z,C,V})"), the reasons a step can
stop, and the state a run starts from. Plain data throughout. -/

namespace Sys2Proof.Machine

/-- The four condition flags (R23). -/
structure Flags where
  n : Bool
  z : Bool
  c : Bool
  v : Bool
deriving DecidableEq, Repr

/-- The byte memory (spec/20_memory.md R31): `size` is MEM_SIZE, and `cells` lists, by rising address, the bytes that differ
from what an unlisted byte reads as. `Memory.wf` (Machine/Ops.lean) says this form holds. -/
structure Memory where
  size : Nat
  cells : List Host.Cell
deriving DecidableEq, Repr

/-- The whole state: 16 registers, of which `x[15]` is the pc (R14, R19), the flags (R23) and the memory (R28). -/
structure State where
  regs : Vector Word 16
  flags : Flags
  mem : Memory
deriving DecidableEq, Repr

/-- The errors of a step: a closed set (spec/60_exceptions.md R180). Each ends the step with nothing changed (R108), and
the recorded values are those of D34. -/
inductive Fault where
  /-- Raised by every step, before decoding, when `uint(pc) + 4 > MEM_SIZE` (R183, code 1). Safe: the spec's own error. -/
  | fetchError (pc : Word)
  /-- Raised by a step whose fetched word has condition 15 (R181, code 2). Safe: the spec's own error. -/
  | invalidCondition (pc word : Word)
  /-- Raised by a step whose fetched word has class 01 or 11 and another condition (R181, code 3). Safe: the spec's own
  error. -/
  | reservedClass (pc word : Word)
deriving DecidableEq, Repr

/-- The reasons the model has no meaning for an instruction. No arm of `exec` uses one: every instruction has its meaning. -/
inductive Refusal where
  /-- An instruction of the opcode table that has no meaning yet; raised by an arm of `exec` (none is left). Safe. -/
  | notModelled (mnemonic : String)
deriving DecidableEq, Repr

/-- What `exec` and `step` answer with. -/
abbrev Result := Host.Outcome State Fault Refusal

/-- The launch parameters INIT_REGS, INIT_FLAGS (as a flags byte) and INIT_MEM with its MEM_SIZE
(spec/70_reset_and_hazards.md R199, D18, D20). -/
structure Launch where
  initRegs : Vector Word 16
  initFlags : Byte
  initMem : Memory
deriving DecidableEq, Repr

/-- The state the host passes to the first step (R199): the upper four bits of the flags byte are ignored (R25). -/
def State.launch (l : Launch) : State where
  regs := l.initRegs
  flags := ⟨l.initFlags.getLsbD 3, l.initFlags.getLsbD 2, l.initFlags.getLsbD 1, l.initFlags.getLsbD 0⟩
  mem := l.initMem

/-- The launch the model calls reset. The core has no reset (R200) and every parameter is OPEN (R199): the values are the
DESIGN CHOICEs of logs 1 to 5. -/
def Launch.reset : Launch where
  initRegs := Config.resetRegs
  initFlags := Config.resetFlagsByte
  initMem := ⟨Config.resetMemSize, []⟩

/-- The machine before its first step: registers 0, the pc at the conventional entry point 0 (R201), flags 0, nothing in
memory. -/
def State.reset : State := State.launch Launch.reset

end Sys2Proof.Machine
end

