-- ==== Sys2Proof/Machine/Ops.lean ====
section
/-! DEFINITION. The named operations over memory, registers, flags and the pc, the fetch, the condition gate, and the codes of
the errors. There is no taking of an exception and no return from one to model: an error "saves no state, changes no mode or mask, touches
no stack and redirects no control" (spec/60_exceptions.md R187, R188). -/

namespace Sys2Proof.Machine

/-! ## Memory (spec/20_memory.md) -/

/-- The byte at an address in a list of cells. -/
def lookupCell : List Host.Cell → Nat → Byte
  | [], _ => Config.unlistedByte
  | (k, v) :: rest, a => if k = a then v else lookupCell rest a

/-- A list of cells with the byte at one address replaced; writing what an unlisted byte reads as removes the cell. -/
def writeCell : List Host.Cell → Nat → Byte → List Host.Cell
  | [], a, b => if b = Config.unlistedByte then [] else [(a, b)]
  | (k, v) :: rest, a, b =>
    if a < k then if b = Config.unlistedByte then (k, v) :: rest else (a, b) :: (k, v) :: rest
    else if a = k then if b = Config.unlistedByte then rest else (a, b) :: rest
    else (k, v) :: writeCell rest a b

/-- Strictly rising addresses from `lo` on, below `size`, and no cell that reads as an unlisted one. -/
def cellsWf (size : Nat) : Nat → List Host.Cell → Bool
  | _, [] => true
  | lo, (k, v) :: rest => decide (lo ≤ k) && decide (k < size) && (v != Config.unlistedByte) && cellsWf size (k + 1) rest

/-- The canonical form: MEM_SIZE is at most 2^32 (R31), and the cells are canonical, so that equal memories are equal data. -/
def Memory.wf (m : Memory) : Bool := decide (m.size ≤ 2 ^ 32) && cellsWf m.size 0 m.cells

/-- The byte at an address. -/
def Memory.readByte (m : Memory) (a : Nat) : Byte := lookupCell m.cells a

/-- The byte at an address is replaced; an address outside memory holds no byte and nothing happens (log 19). Used by the host
and by `serialize` only, never by the engine (R33). -/
def Memory.writeByte (m : Memory) (a : Nat) (b : Byte) : Memory :=
  if a < m.size then { m with cells := writeCell m.cells a b } else m

/-- The 4 bytes at an address all lie in memory, over the integers and without wrap (R37). -/
def Memory.inBounds (m : Memory) (a : Nat) : Bool := decide (a + 4 ≤ m.size)

/-- `FetchWord` (R34): big-endian, at any alignment (R36). -/
def Memory.fetchWord (m : Memory) (a : Nat) : Word :=
  wordOfBytes (m.readByte a) (m.readByte (a + 1)) (m.readByte (a + 2)) (m.readByte (a + 3))

/-- A word laid big-endian at an address (R34, R46). -/
def Memory.writeWord (m : Memory) (a : Nat) (w : Word) : Memory :=
  (((m.writeByte a (byteOfWord w 0)).writeByte (a + 1) (byteOfWord w 1)).writeByte (a + 2) (byteOfWord w 2)).writeByte (a + 3)
    (byteOfWord w 3)

/-! ## Registers, pc and flags (spec/10_state.md) -/

/-- `x[i]`: no register is hard-wired (R14). -/
def State.x (s : State) (r : Reg) : Word := s.regs[r.val]'r.isLt

/-- `x[i] <- v` (R14). -/
def State.setX (s : State) (r : Reg) (v : Word) : State := { s with regs := s.regs.set r.val v r.isLt }

/-- `pc`, a name for `x[15]` (R12, R19). -/
def State.pc (s : State) : Word := s.x Reg.pc

/-- `pc <- target` (R12). -/
def State.setPc (s : State) (v : Word) : State := s.setX Reg.pc v

/-- The four flags replaced together. -/
def State.setFlags (s : State) (f : Flags) : State := { s with flags := f }

/-- The memory replaced: the host's own act, never the engine's (R33). -/
def State.setMem (s : State) (m : Memory) : State := { s with mem := m }

/-- The generic advance `x[15] <- x[15] + 4`, modulo 2^32, applied to the value `x[15]` then holds
(spec/40_execution_cycle.md R107, D14, D15). -/
def State.advance (s : State) : State := s.setPc (s.pc + 4#32)

/-! ## The condition gate (spec/40_execution_cycle.md) -/

/-- `CondHolds` (R103). -/
def condHolds (c : Cond) (f : Flags) : Bool :=
  match c with
  | .eq => f.z
  | .ne => !f.z
  | .cs => f.c
  | .cc => !f.c
  | .mi => f.n
  | .pl => !f.n
  | .vs => f.v
  | .vc => !f.v
  | .hi => f.c && !f.z
  | .ls => !f.c || f.z
  | .ge => f.n == f.v
  | .lt => f.n != f.v
  | .gt => !f.z && f.n == f.v
  | .le => f.z || f.n != f.v
  | .al => true

/-- The gate every instruction stands behind: "If false: PC += 4, step ends with no other effect" (R104). -/
def State.gated (s : State) (c : Cond) (effect : State → State) : Result :=
  .next (if condHolds c s.flags then effect s else s.advance)

/-! ## The fetch (spec/40_execution_cycle.md R101, R102) -/

/-- The error a step reports for a word that does not decode (R181, D34). -/
def faultOfDecode (pc w : Word) : DecodeError → Fault
  | .invalidCondition => .invalidCondition pc w
  | .reservedClass => .reservedClass pc w

/-- Fetch and decode at the pc: the bounds check, then the condition field, then the class (R101, R102, R186). -/
def State.fetchInstr (s : State) : Except Fault Instr :=
  if s.mem.inBounds s.pc.toNat then
    match decode (s.mem.fetchWord s.pc.toNat) with
    | .ok i => .ok i
    | .error e => .error (faultOfDecode s.pc (s.mem.fetchWord s.pc.toNat) e)
  else .error (.fetchError s.pc)

/-- A word stored where the next step fetches. Where the memory is too short to hold it there (and the address space is not), the
memory is made long enough: the host owns MEM_SIZE (R31, log 6). -/
def State.storeAtPc (s : State) (w : Word) : State :=
  if s.pc.toNat + 4 ≤ 2 ^ 32 then
    s.setMem (Memory.writeWord { s.mem with size := max s.mem.size (s.pc.toNat + 4) } s.pc.toNat w)
  else s

/-- The error codes of R180 (D34). -/
def Fault.code : Fault → Nat
  | .fetchError _ => 1
  | .invalidCondition _ _ => 2
  | .reservedClass _ _ => 3

end Sys2Proof.Machine
end

