-- ==== Sys2Proof/Machine/Flags.lean ====
section
/-! DEFINITION. The ALU and the flag computations (spec/41_data_processing.md R125 to R127), the packed flags byte
(spec/10_state.md R25), and how an executed data-processing instruction writes its result (R120). -/

namespace Sys2Proof.Machine

/-- What the ALU hands on: the 32-bit result, and the values of C and V after the instruction. -/
structure AluOut where
  result : Word
  carry : Bool
  overflow : Bool
deriving DecidableEq, Repr

/-- The exact signed value does not fit in 32 bits (R125). -/
def signedOverflow (t : Int) : Bool := decide (t < -2 ^ 31) || decide (t > 2 ^ 31 - 1)

/-- `AddWithCarry` of R125, over the integers. -/
def addWithCarry (a b : Word) (cin : Bool) : AluOut where
  result := BitVec.ofInt 32 (a.toNat + b.toNat + bit cin)
  carry := decide ((a.toNat + b.toNat + bit cin : Int) ≥ 2 ^ 32)
  overflow := signedOverflow (a.toInt + b.toInt + bit cin)

/-- `SubWithBorrow` of R125, `a - b - (1 - cin)` over the integers; the carry is no-borrow (D10). -/
def subWithBorrow (a b : Word) (cin : Bool) : AluOut where
  result := BitVec.ofInt 32 (a.toNat - b.toNat - (1 - bit cin))
  carry := decide ((a.toNat - b.toNat - (1 - bit cin) : Int) ≥ 0)
  overflow := signedOverflow (a.toInt - b.toInt - (1 - bit cin))

/-- A logical opcode leaves C and V unchanged (R127, D9). -/
def logicalOut (r : Word) (f : Flags) : AluOut := ⟨r, f.c, f.v⟩

/-! ## One line of R127 each -/

/-- AND (R128). -/
def aluAnd (lhs rhs : Word) (f : Flags) : AluOut := logicalOut (lhs &&& rhs) f

/-- EOR (R129). -/
def aluEor (lhs rhs : Word) (f : Flags) : AluOut := logicalOut (lhs ^^^ rhs) f

/-- SUB (R130). -/
def aluSub (lhs rhs : Word) (_f : Flags) : AluOut := subWithBorrow lhs rhs true

/-- RSB (R131). -/
def aluRsb (lhs rhs : Word) (_f : Flags) : AluOut := subWithBorrow rhs lhs true

/-- ADD (R132). -/
def aluAdd (lhs rhs : Word) (_f : Flags) : AluOut := addWithCarry lhs rhs false

/-- ADC (R133). -/
def aluAdc (lhs rhs : Word) (f : Flags) : AluOut := addWithCarry lhs rhs f.c

/-- SBC (R134). -/
def aluSbc (lhs rhs : Word) (f : Flags) : AluOut := subWithBorrow lhs rhs f.c

/-- RSC (R135). -/
def aluRsc (lhs rhs : Word) (f : Flags) : AluOut := subWithBorrow rhs lhs f.c

/-- TST (R136). -/
def aluTst (lhs rhs : Word) (f : Flags) : AluOut := logicalOut (lhs &&& rhs) f

/-- TEQ (R137). -/
def aluTeq (lhs rhs : Word) (f : Flags) : AluOut := logicalOut (lhs ^^^ rhs) f

/-- CMP (R138). -/
def aluCmp (lhs rhs : Word) (_f : Flags) : AluOut := subWithBorrow lhs rhs true

/-- CMN (R139). -/
def aluCmn (lhs rhs : Word) (_f : Flags) : AluOut := addWithCarry lhs rhs false

/-- ORR (R140). -/
def aluOrr (lhs rhs : Word) (f : Flags) : AluOut := logicalOut (lhs ||| rhs) f

/-- MOV (R141). -/
def aluMov (_lhs rhs : Word) (f : Flags) : AluOut := logicalOut rhs f

/-- BIC (R142). -/
def aluBic (lhs rhs : Word) (f : Flags) : AluOut := logicalOut (lhs &&& ~~~rhs) f

/-- MVN (R143). -/
def aluMvn (_lhs rhs : Word) (f : Flags) : AluOut := logicalOut (~~~rhs) f

/-! ## Flags -/

/-- N and Z of a result (R126), with C and V as the ALU gives them. -/
def AluOut.flags (o : AluOut) : Flags := ⟨o.result.getLsbD 31, o.result == 0x00000000#32, o.carry, o.overflow⟩

/-- The packed flags byte, `8N + 4Z + 2C + V`; the upper four bits are 0 (spec/10_state.md R25, D21). -/
def Flags.pack (f : Flags) : Byte :=
  0b0000#4 ++ BitVec.ofBool f.n ++ BitVec.ofBool f.z ++ BitVec.ofBool f.c ++ BitVec.ofBool f.v

/-- The flags of a flags byte; its upper four bits are ignored (R25, D21). -/
def Flags.unpack (b : Byte) : Flags := ⟨b.getLsbD 3, b.getLsbD 2, b.getLsbD 1, b.getLsbD 0⟩

/-! ## Writing the result (R120) -/

/-- An opcode that writes Rd: the result to Rd, the flags, then the generic advance, which adds 4 to the result when Rd is 15
(R120, R145, D14). -/
def State.writeResult (s : State) (rd : Reg) (o : AluOut) : State := ((s.setX rd o.result).setFlags o.flags).advance

/-- TST, TEQ, CMP and CMN: the flags, then the advance; the Rd field is not written (R120, R127). -/
def State.compareResult (s : State) (o : AluOut) : State := (s.setFlags o.flags).advance

end Sys2Proof.Machine
end

