-- ==== Sys2Proof/Machine/Operands.lean ====
section
/-! DEFINITION. The second operand: the immediate rotation and the shift unit (spec/41_data_processing.md R122 to R124). Every
read sees the state the step began with (spec/40_execution_cycle.md R106), so a read of R15 gives the instruction's own
address (spec/10_state.md R20). -/

namespace Sys2Proof.Machine

/-- An immediate operand under either convention of IMM_ROTATION (spec/93_implementation_defined.md Part 1, row 11). -/
def immOperandBy (convention : Config.ImmRotation) (rotate : BitVec 4) (value : BitVec 8) : Word :=
  match convention with
  | .rotlByField => (value.setWidth 32).rotateLeft rotate.toNat
  | .rotrBy2xField => (value.setWidth 32).rotateRight (2 * rotate.toNat)

/-- An immediate operand: `rotl32(zext_32(value), uint(rotate))` (R123; the convention is log 7). -/
def immOperand (rotate : BitVec 4) (value : BitVec 8) : Word := immOperandBy Config.immRotation rotate value

/-- The shift unit (R124): an amount of 0 is the identity for every type, 32 and more follow D12, and no carry comes out. -/
def shift (type : ShiftType) (v : Word) (n : Nat) : Word :=
  match type with
  | .logicalLeft => if n < 32 then v <<< n else 0x00000000#32
  | .logicalRight => if n < 32 then v >>> n else 0x00000000#32
  | .arithmeticRight => if n < 32 then v.sshiftRight n else if v.msb then 0xFFFFFFFF#32 else 0x00000000#32
  | .rotateRight => v.rotateRight (n % 32)

/-- `Rm` shifted by an immediate amount, 0 to 31 (R122). -/
def shiftImmOperand (type : ShiftType) (amount : BitVec 5) (rm : Reg) (s : State) : Word := shift type (s.x rm) amount.toNat

/-- The amount a register gives: its low byte, 0 to 255 (R122, C5). -/
def regShiftAmount (rs : Reg) (s : State) : Nat := ((s.x rs).extractLsb' 0 8).toNat

/-- `Rm` shifted by a register's low byte (R122). -/
def shiftRegOperand (type : ShiftType) (rs rm : Reg) (s : State) : Word := shift type (s.x rm) (regShiftAmount rs s)

/-- `Operand2` (R122, R123). -/
def operand2 (o : Operand) (s : State) : Word :=
  match o with
  | .immediate rotate value => immOperand rotate value
  | .shiftByImm type amount rm => shiftImmOperand type amount rm s
  | .shiftByReg type rs rm => shiftRegOperand type rs rm s

end Sys2Proof.Machine
end

