-- ==== Sys2Proof/Machine/Arithmetic.lean ====
section
/-! DEFINITION. The meanings of SUB, RSB, ADD, ADC, SBC and RSC in their three operand forms (spec/41_data_processing.md). Each stands behind the
condition gate (R104) and runs R120 with its own line of R127; S is carried and has no effect (R144). -/

namespace Sys2Proof.Machine

/-- `SUB.imm` (R130). -/
def execSubImm (c : Cond) (_sbit : Bool) (rn rd : Reg) (rotate : BitVec 4) (value : BitVec 8) (st : State) : Result :=
  st.gated c fun s => s.writeResult rd (aluSub (s.x rn) (immOperand rotate value) s.flags)

/-- `SUB.rsi` (R130). -/
def execSubRsi (c : Cond) (_sbit : Bool) (rn rd : Reg) (type : ShiftType) (amount : BitVec 5) (rm : Reg) (st : State) : Result :=
  st.gated c fun s => s.writeResult rd (aluSub (s.x rn) (shiftImmOperand type amount rm s) s.flags)

/-- `SUB.rsr` (R130). -/
def execSubRsr (c : Cond) (_sbit : Bool) (rn rd : Reg) (type : ShiftType) (rs rm : Reg) (st : State) : Result :=
  st.gated c fun s => s.writeResult rd (aluSub (s.x rn) (shiftRegOperand type rs rm s) s.flags)

/-- `RSB.imm` (R131). -/
def execRsbImm (c : Cond) (_sbit : Bool) (rn rd : Reg) (rotate : BitVec 4) (value : BitVec 8) (st : State) : Result :=
  st.gated c fun s => s.writeResult rd (aluRsb (s.x rn) (immOperand rotate value) s.flags)

/-- `RSB.rsi` (R131). -/
def execRsbRsi (c : Cond) (_sbit : Bool) (rn rd : Reg) (type : ShiftType) (amount : BitVec 5) (rm : Reg) (st : State) : Result :=
  st.gated c fun s => s.writeResult rd (aluRsb (s.x rn) (shiftImmOperand type amount rm s) s.flags)

/-- `RSB.rsr` (R131). -/
def execRsbRsr (c : Cond) (_sbit : Bool) (rn rd : Reg) (type : ShiftType) (rs rm : Reg) (st : State) : Result :=
  st.gated c fun s => s.writeResult rd (aluRsb (s.x rn) (shiftRegOperand type rs rm s) s.flags)

/-- `ADD.imm` (R132). -/
def execAddImm (c : Cond) (_sbit : Bool) (rn rd : Reg) (rotate : BitVec 4) (value : BitVec 8) (st : State) : Result :=
  st.gated c fun s => s.writeResult rd (aluAdd (s.x rn) (immOperand rotate value) s.flags)

/-- `ADD.rsi` (R132). -/
def execAddRsi (c : Cond) (_sbit : Bool) (rn rd : Reg) (type : ShiftType) (amount : BitVec 5) (rm : Reg) (st : State) : Result :=
  st.gated c fun s => s.writeResult rd (aluAdd (s.x rn) (shiftImmOperand type amount rm s) s.flags)

/-- `ADD.rsr` (R132). -/
def execAddRsr (c : Cond) (_sbit : Bool) (rn rd : Reg) (type : ShiftType) (rs rm : Reg) (st : State) : Result :=
  st.gated c fun s => s.writeResult rd (aluAdd (s.x rn) (shiftRegOperand type rs rm s) s.flags)

/-- `ADC.imm` (R133). -/
def execAdcImm (c : Cond) (_sbit : Bool) (rn rd : Reg) (rotate : BitVec 4) (value : BitVec 8) (st : State) : Result :=
  st.gated c fun s => s.writeResult rd (aluAdc (s.x rn) (immOperand rotate value) s.flags)

/-- `ADC.rsi` (R133). -/
def execAdcRsi (c : Cond) (_sbit : Bool) (rn rd : Reg) (type : ShiftType) (amount : BitVec 5) (rm : Reg) (st : State) : Result :=
  st.gated c fun s => s.writeResult rd (aluAdc (s.x rn) (shiftImmOperand type amount rm s) s.flags)

/-- `ADC.rsr` (R133). -/
def execAdcRsr (c : Cond) (_sbit : Bool) (rn rd : Reg) (type : ShiftType) (rs rm : Reg) (st : State) : Result :=
  st.gated c fun s => s.writeResult rd (aluAdc (s.x rn) (shiftRegOperand type rs rm s) s.flags)

/-- `SBC.imm` (R134). -/
def execSbcImm (c : Cond) (_sbit : Bool) (rn rd : Reg) (rotate : BitVec 4) (value : BitVec 8) (st : State) : Result :=
  st.gated c fun s => s.writeResult rd (aluSbc (s.x rn) (immOperand rotate value) s.flags)

/-- `SBC.rsi` (R134). -/
def execSbcRsi (c : Cond) (_sbit : Bool) (rn rd : Reg) (type : ShiftType) (amount : BitVec 5) (rm : Reg) (st : State) : Result :=
  st.gated c fun s => s.writeResult rd (aluSbc (s.x rn) (shiftImmOperand type amount rm s) s.flags)

/-- `SBC.rsr` (R134). -/
def execSbcRsr (c : Cond) (_sbit : Bool) (rn rd : Reg) (type : ShiftType) (rs rm : Reg) (st : State) : Result :=
  st.gated c fun s => s.writeResult rd (aluSbc (s.x rn) (shiftRegOperand type rs rm s) s.flags)

/-- `RSC.imm` (R135). -/
def execRscImm (c : Cond) (_sbit : Bool) (rn rd : Reg) (rotate : BitVec 4) (value : BitVec 8) (st : State) : Result :=
  st.gated c fun s => s.writeResult rd (aluRsc (s.x rn) (immOperand rotate value) s.flags)

/-- `RSC.rsi` (R135). -/
def execRscRsi (c : Cond) (_sbit : Bool) (rn rd : Reg) (type : ShiftType) (amount : BitVec 5) (rm : Reg) (st : State) : Result :=
  st.gated c fun s => s.writeResult rd (aluRsc (s.x rn) (shiftImmOperand type amount rm s) s.flags)

/-- `RSC.rsr` (R135). -/
def execRscRsr (c : Cond) (_sbit : Bool) (rn rd : Reg) (type : ShiftType) (rs rm : Reg) (st : State) : Result :=
  st.gated c fun s => s.writeResult rd (aluRsc (s.x rn) (shiftRegOperand type rs rm s) s.flags)

end Sys2Proof.Machine
end

