-- ==== Sys2Proof/Machine/Branch.lean ====
section
/-! DEFINITION. The meanings of B and BL (spec/42_branch.md R146 to R148). -/

namespace Sys2Proof.Machine

/-- `a + 4 + (sext_32(offset) << 2)`, modulo 2^32, for the branch at `a` (R146, C1). -/
def branchTarget (a : Word) (offset : BitVec 24) : Word := a + 4#32 + (offset.signExtend 32 <<< 2)

/-- The return address, `a + 4` (R147, C9). -/
def linkValue (a : Word) : Word := a + 4#32

/-- `B` (R146): the pc only, with no further advance (R107). -/
def execB (c : Cond) (offset : BitVec 24) (st : State) : Result :=
  st.gated c fun s => s.setPc (branchTarget s.pc offset)

/-- `BL` (R147): `x[14]` and the pc, both from the branch's own address. -/
def execBl (c : Cond) (offset : BitVec 24) (st : State) : Result :=
  st.gated c fun s => (s.setX Reg.lr (linkValue s.pc)).setPc (branchTarget s.pc offset)

end Sys2Proof.Machine
end

