-- ==== Sys2Proof/Machine/Compare.lean ====
section
/-! DEFINITION. The meanings of TST, TEQ, CMP and CMN in their three operand forms (spec/41_data_processing.md). Each stands behind the
condition gate (R104) and runs R120 with its own line of R127; S is carried and has no effect (R144). -/

namespace Sys2Proof.Machine

/-- `TST.imm` (R136). -/
def execTstImm (c : Cond) (_sbit : Bool) (rn _rd : Reg) (rotate : BitVec 4) (value : BitVec 8) (st : State) : Result :=
  st.gated c fun s => s.compareResult (aluTst (s.x rn) (immOperand rotate value) s.flags)

/-- `TST.rsi` (R136). -/
def execTstRsi (c : Cond) (_sbit : Bool) (rn _rd : Reg) (type : ShiftType) (amount : BitVec 5) (rm : Reg) (st : State) : Result :=
  st.gated c fun s => s.compareResult (aluTst (s.x rn) (shiftImmOperand type amount rm s) s.flags)

/-- `TST.rsr` (R136). -/
def execTstRsr (c : Cond) (_sbit : Bool) (rn _rd : Reg) (type : ShiftType) (rs rm : Reg) (st : State) : Result :=
  st.gated c fun s => s.compareResult (aluTst (s.x rn) (shiftRegOperand type rs rm s) s.flags)

/-- `TEQ.imm` (R137). -/
def execTeqImm (c : Cond) (_sbit : Bool) (rn _rd : Reg) (rotate : BitVec 4) (value : BitVec 8) (st : State) : Result :=
  st.gated c fun s => s.compareResult (aluTeq (s.x rn) (immOperand rotate value) s.flags)

/-- `TEQ.rsi` (R137). -/
def execTeqRsi (c : Cond) (_sbit : Bool) (rn _rd : Reg) (type : ShiftType) (amount : BitVec 5) (rm : Reg) (st : State) : Result :=
  st.gated c fun s => s.compareResult (aluTeq (s.x rn) (shiftImmOperand type amount rm s) s.flags)

/-- `TEQ.rsr` (R137). -/
def execTeqRsr (c : Cond) (_sbit : Bool) (rn _rd : Reg) (type : ShiftType) (rs rm : Reg) (st : State) : Result :=
  st.gated c fun s => s.compareResult (aluTeq (s.x rn) (shiftRegOperand type rs rm s) s.flags)

/-- `CMP.imm` (R138). -/
def execCmpImm (c : Cond) (_sbit : Bool) (rn _rd : Reg) (rotate : BitVec 4) (value : BitVec 8) (st : State) : Result :=
  st.gated c fun s => s.compareResult (aluCmp (s.x rn) (immOperand rotate value) s.flags)

/-- `CMP.rsi` (R138). -/
def execCmpRsi (c : Cond) (_sbit : Bool) (rn _rd : Reg) (type : ShiftType) (amount : BitVec 5) (rm : Reg) (st : State) : Result :=
  st.gated c fun s => s.compareResult (aluCmp (s.x rn) (shiftImmOperand type amount rm s) s.flags)

/-- `CMP.rsr` (R138). -/
def execCmpRsr (c : Cond) (_sbit : Bool) (rn _rd : Reg) (type : ShiftType) (rs rm : Reg) (st : State) : Result :=
  st.gated c fun s => s.compareResult (aluCmp (s.x rn) (shiftRegOperand type rs rm s) s.flags)

/-- `CMN.imm` (R139). -/
def execCmnImm (c : Cond) (_sbit : Bool) (rn _rd : Reg) (rotate : BitVec 4) (value : BitVec 8) (st : State) : Result :=
  st.gated c fun s => s.compareResult (aluCmn (s.x rn) (immOperand rotate value) s.flags)

/-- `CMN.rsi` (R139). -/
def execCmnRsi (c : Cond) (_sbit : Bool) (rn _rd : Reg) (type : ShiftType) (amount : BitVec 5) (rm : Reg) (st : State) : Result :=
  st.gated c fun s => s.compareResult (aluCmn (s.x rn) (shiftImmOperand type amount rm s) s.flags)

/-- `CMN.rsr` (R139). -/
def execCmnRsr (c : Cond) (_sbit : Bool) (rn _rd : Reg) (type : ShiftType) (rs rm : Reg) (st : State) : Result :=
  st.gated c fun s => s.compareResult (aluCmn (s.x rn) (shiftRegOperand type rs rm s) s.flags)

end Sys2Proof.Machine
end

