-- ==== Sys2Proof/Machine/Logical.lean ====
section
/-! DEFINITION. The meanings of AND, EOR, ORR and BIC in their three operand forms (spec/41_data_processing.md). Each stands behind the
condition gate (R104) and runs R120 with its own line of R127; S is carried and has no effect (R144). -/

namespace Sys2Proof.Machine

/-- `AND.imm` (R128). -/
def execAndImm (c : Cond) (_sbit : Bool) (rn rd : Reg) (rotate : BitVec 4) (value : BitVec 8) (st : State) : Result :=
  st.gated c fun s => s.writeResult rd (aluAnd (s.x rn) (immOperand rotate value) s.flags)

/-- `AND.rsi` (R128). -/
def execAndRsi (c : Cond) (_sbit : Bool) (rn rd : Reg) (type : ShiftType) (amount : BitVec 5) (rm : Reg) (st : State) : Result :=
  st.gated c fun s => s.writeResult rd (aluAnd (s.x rn) (shiftImmOperand type amount rm s) s.flags)

/-- `AND.rsr` (R128). -/
def execAndRsr (c : Cond) (_sbit : Bool) (rn rd : Reg) (type : ShiftType) (rs rm : Reg) (st : State) : Result :=
  st.gated c fun s => s.writeResult rd (aluAnd (s.x rn) (shiftRegOperand type rs rm s) s.flags)

/-- `EOR.imm` (R129). -/
def execEorImm (c : Cond) (_sbit : Bool) (rn rd : Reg) (rotate : BitVec 4) (value : BitVec 8) (st : State) : Result :=
  st.gated c fun s => s.writeResult rd (aluEor (s.x rn) (immOperand rotate value) s.flags)

/-- `EOR.rsi` (R129). -/
def execEorRsi (c : Cond) (_sbit : Bool) (rn rd : Reg) (type : ShiftType) (amount : BitVec 5) (rm : Reg) (st : State) : Result :=
  st.gated c fun s => s.writeResult rd (aluEor (s.x rn) (shiftImmOperand type amount rm s) s.flags)

/-- `EOR.rsr` (R129). -/
def execEorRsr (c : Cond) (_sbit : Bool) (rn rd : Reg) (type : ShiftType) (rs rm : Reg) (st : State) : Result :=
  st.gated c fun s => s.writeResult rd (aluEor (s.x rn) (shiftRegOperand type rs rm s) s.flags)

/-- `ORR.imm` (R140). -/
def execOrrImm (c : Cond) (_sbit : Bool) (rn rd : Reg) (rotate : BitVec 4) (value : BitVec 8) (st : State) : Result :=
  st.gated c fun s => s.writeResult rd (aluOrr (s.x rn) (immOperand rotate value) s.flags)

/-- `ORR.rsi` (R140). -/
def execOrrRsi (c : Cond) (_sbit : Bool) (rn rd : Reg) (type : ShiftType) (amount : BitVec 5) (rm : Reg) (st : State) : Result :=
  st.gated c fun s => s.writeResult rd (aluOrr (s.x rn) (shiftImmOperand type amount rm s) s.flags)

/-- `ORR.rsr` (R140). -/
def execOrrRsr (c : Cond) (_sbit : Bool) (rn rd : Reg) (type : ShiftType) (rs rm : Reg) (st : State) : Result :=
  st.gated c fun s => s.writeResult rd (aluOrr (s.x rn) (shiftRegOperand type rs rm s) s.flags)

/-- `BIC.imm` (R142). -/
def execBicImm (c : Cond) (_sbit : Bool) (rn rd : Reg) (rotate : BitVec 4) (value : BitVec 8) (st : State) : Result :=
  st.gated c fun s => s.writeResult rd (aluBic (s.x rn) (immOperand rotate value) s.flags)

/-- `BIC.rsi` (R142). -/
def execBicRsi (c : Cond) (_sbit : Bool) (rn rd : Reg) (type : ShiftType) (amount : BitVec 5) (rm : Reg) (st : State) : Result :=
  st.gated c fun s => s.writeResult rd (aluBic (s.x rn) (shiftImmOperand type amount rm s) s.flags)

/-- `BIC.rsr` (R142). -/
def execBicRsr (c : Cond) (_sbit : Bool) (rn rd : Reg) (type : ShiftType) (rs rm : Reg) (st : State) : Result :=
  st.gated c fun s => s.writeResult rd (aluBic (s.x rn) (shiftRegOperand type rs rm s) s.flags)

end Sys2Proof.Machine
end

