-- ==== Sys2Proof/Machine/Move.lean ====
section
/-! DEFINITION. The meanings of MOV and MVN in their three operand forms (spec/41_data_processing.md). Each stands behind the
condition gate (R104) and runs R120 with its own line of R127; S is carried and has no effect (R144). -/

namespace Sys2Proof.Machine

/-- `MOV.imm` (R141). -/
def execMovImm (c : Cond) (_sbit : Bool) (rn rd : Reg) (rotate : BitVec 4) (value : BitVec 8) (st : State) : Result :=
  st.gated c fun s => s.writeResult rd (aluMov (s.x rn) (immOperand rotate value) s.flags)

/-- `MOV.rsi` (R141). -/
def execMovRsi (c : Cond) (_sbit : Bool) (rn rd : Reg) (type : ShiftType) (amount : BitVec 5) (rm : Reg) (st : State) : Result :=
  st.gated c fun s => s.writeResult rd (aluMov (s.x rn) (shiftImmOperand type amount rm s) s.flags)

/-- `MOV.rsr` (R141). -/
def execMovRsr (c : Cond) (_sbit : Bool) (rn rd : Reg) (type : ShiftType) (rs rm : Reg) (st : State) : Result :=
  st.gated c fun s => s.writeResult rd (aluMov (s.x rn) (shiftRegOperand type rs rm s) s.flags)

/-- `MVN.imm` (R143). -/
def execMvnImm (c : Cond) (_sbit : Bool) (rn rd : Reg) (rotate : BitVec 4) (value : BitVec 8) (st : State) : Result :=
  st.gated c fun s => s.writeResult rd (aluMvn (s.x rn) (immOperand rotate value) s.flags)

/-- `MVN.rsi` (R143). -/
def execMvnRsi (c : Cond) (_sbit : Bool) (rn rd : Reg) (type : ShiftType) (amount : BitVec 5) (rm : Reg) (st : State) : Result :=
  st.gated c fun s => s.writeResult rd (aluMvn (s.x rn) (shiftImmOperand type amount rm s) s.flags)

/-- `MVN.rsr` (R143). -/
def execMvnRsr (c : Cond) (_sbit : Bool) (rn rd : Reg) (type : ShiftType) (rs rm : Reg) (st : State) : Result :=
  st.gated c fun s => s.writeResult rd (aluMvn (s.x rn) (shiftRegOperand type rs rm s) s.flags)

end Sys2Proof.Machine
end

