-- ==== Sys2Proof/Machine/Dispatch.lean ====
section
/-! DEFINITION. One arm per constructor of Instr (spec/40_execution_cycle.md R105, R109). -/

namespace Sys2Proof.Machine

def exec (i : Instr) (s : State) : Host.Outcome State Fault Refusal :=
  match i with
  | .andImm c sb rn rd rot val => Sys2Proof.Machine.execAndImm c sb rn rd rot val s
  | .andRsi c sb rn rd ty amt rm => Sys2Proof.Machine.execAndRsi c sb rn rd ty amt rm s
  | .andRsr c sb rn rd ty rs rm => Sys2Proof.Machine.execAndRsr c sb rn rd ty rs rm s
  | .eorImm c sb rn rd rot val => Sys2Proof.Machine.execEorImm c sb rn rd rot val s
  | .eorRsi c sb rn rd ty amt rm => Sys2Proof.Machine.execEorRsi c sb rn rd ty amt rm s
  | .eorRsr c sb rn rd ty rs rm => Sys2Proof.Machine.execEorRsr c sb rn rd ty rs rm s
  | .subImm c sb rn rd rot val => Sys2Proof.Machine.execSubImm c sb rn rd rot val s
  | .subRsi c sb rn rd ty amt rm => Sys2Proof.Machine.execSubRsi c sb rn rd ty amt rm s
  | .subRsr c sb rn rd ty rs rm => Sys2Proof.Machine.execSubRsr c sb rn rd ty rs rm s
  | .rsbImm c sb rn rd rot val => Sys2Proof.Machine.execRsbImm c sb rn rd rot val s
  | .rsbRsi c sb rn rd ty amt rm => Sys2Proof.Machine.execRsbRsi c sb rn rd ty amt rm s
  | .rsbRsr c sb rn rd ty rs rm => Sys2Proof.Machine.execRsbRsr c sb rn rd ty rs rm s
  | .addImm c sb rn rd rot val => Sys2Proof.Machine.execAddImm c sb rn rd rot val s
  | .addRsi c sb rn rd ty amt rm => Sys2Proof.Machine.execAddRsi c sb rn rd ty amt rm s
  | .addRsr c sb rn rd ty rs rm => Sys2Proof.Machine.execAddRsr c sb rn rd ty rs rm s
  | .adcImm c sb rn rd rot val => Sys2Proof.Machine.execAdcImm c sb rn rd rot val s
  | .adcRsi c sb rn rd ty amt rm => Sys2Proof.Machine.execAdcRsi c sb rn rd ty amt rm s
  | .adcRsr c sb rn rd ty rs rm => Sys2Proof.Machine.execAdcRsr c sb rn rd ty rs rm s
  | .sbcImm c sb rn rd rot val => Sys2Proof.Machine.execSbcImm c sb rn rd rot val s
  | .sbcRsi c sb rn rd ty amt rm => Sys2Proof.Machine.execSbcRsi c sb rn rd ty amt rm s
  | .sbcRsr c sb rn rd ty rs rm => Sys2Proof.Machine.execSbcRsr c sb rn rd ty rs rm s
  | .rscImm c sb rn rd rot val => Sys2Proof.Machine.execRscImm c sb rn rd rot val s
  | .rscRsi c sb rn rd ty amt rm => Sys2Proof.Machine.execRscRsi c sb rn rd ty amt rm s
  | .rscRsr c sb rn rd ty rs rm => Sys2Proof.Machine.execRscRsr c sb rn rd ty rs rm s
  | .tstImm c sb rn rd rot val => Sys2Proof.Machine.execTstImm c sb rn rd rot val s
  | .tstRsi c sb rn rd ty amt rm => Sys2Proof.Machine.execTstRsi c sb rn rd ty amt rm s
  | .tstRsr c sb rn rd ty rs rm => Sys2Proof.Machine.execTstRsr c sb rn rd ty rs rm s
  | .teqImm c sb rn rd rot val => Sys2Proof.Machine.execTeqImm c sb rn rd rot val s
  | .teqRsi c sb rn rd ty amt rm => Sys2Proof.Machine.execTeqRsi c sb rn rd ty amt rm s
  | .teqRsr c sb rn rd ty rs rm => Sys2Proof.Machine.execTeqRsr c sb rn rd ty rs rm s
  | .cmpImm c sb rn rd rot val => Sys2Proof.Machine.execCmpImm c sb rn rd rot val s
  | .cmpRsi c sb rn rd ty amt rm => Sys2Proof.Machine.execCmpRsi c sb rn rd ty amt rm s
  | .cmpRsr c sb rn rd ty rs rm => Sys2Proof.Machine.execCmpRsr c sb rn rd ty rs rm s
  | .cmnImm c sb rn rd rot val => Sys2Proof.Machine.execCmnImm c sb rn rd rot val s
  | .cmnRsi c sb rn rd ty amt rm => Sys2Proof.Machine.execCmnRsi c sb rn rd ty amt rm s
  | .cmnRsr c sb rn rd ty rs rm => Sys2Proof.Machine.execCmnRsr c sb rn rd ty rs rm s
  | .orrImm c sb rn rd rot val => Sys2Proof.Machine.execOrrImm c sb rn rd rot val s
  | .orrRsi c sb rn rd ty amt rm => Sys2Proof.Machine.execOrrRsi c sb rn rd ty amt rm s
  | .orrRsr c sb rn rd ty rs rm => Sys2Proof.Machine.execOrrRsr c sb rn rd ty rs rm s
  | .movImm c sb rn rd rot val => Sys2Proof.Machine.execMovImm c sb rn rd rot val s
  | .movRsi c sb rn rd ty amt rm => Sys2Proof.Machine.execMovRsi c sb rn rd ty amt rm s
  | .movRsr c sb rn rd ty rs rm => Sys2Proof.Machine.execMovRsr c sb rn rd ty rs rm s
  | .bicImm c sb rn rd rot val => Sys2Proof.Machine.execBicImm c sb rn rd rot val s
  | .bicRsi c sb rn rd ty amt rm => Sys2Proof.Machine.execBicRsi c sb rn rd ty amt rm s
  | .bicRsr c sb rn rd ty rs rm => Sys2Proof.Machine.execBicRsr c sb rn rd ty rs rm s
  | .mvnImm c sb rn rd rot val => Sys2Proof.Machine.execMvnImm c sb rn rd rot val s
  | .mvnRsi c sb rn rd ty amt rm => Sys2Proof.Machine.execMvnRsi c sb rn rd ty amt rm s
  | .mvnRsr c sb rn rd ty rs rm => Sys2Proof.Machine.execMvnRsr c sb rn rd ty rs rm s
  | .b c off => Sys2Proof.Machine.execB c off s
  | .bl c off => Sys2Proof.Machine.execBl c off s

end Sys2Proof.Machine
end

