-- ==== Sys2Proof/Machine/Step.lean ====
section
/-! DEFINITION. One step (spec/40_execution_cycle.md R100 to R112): fetch, decode, and the decoded instruction's meaning, which
holds the condition gate. -/

namespace Sys2Proof.Machine

/-- `Step` of R109: exactly one fetch-decode-execute cycle (R112). A fault carries no state: the caller keeps the one it
passed in (R108, R184). -/
def step (s : State) : Host.Outcome State Fault Refusal :=
  match s.fetchInstr with
  | .ok i => exec i s
  | .error e => .fault e

/-- `s` with a word of the opcode table stored where the next step fetches, at the pc (log 6, log 18). It stands for the
host's load of a program (R46, R202). -/
def State.withFetchWord (s : State) (nbits w : Nat) : State := s.storeAtPc (tableWord nbits w)

end Sys2Proof.Machine
end

