-- ==== Sys2Proof/Machine/Assembler.lean ====
section
/-! DEFINITION. The assembler (spec/30_encoding.md R71 to R90): toolchain, not hardware (spec/00_scope.md R5), specified because it
fixes which words a source program stands for. It receives classified lines and tokens (R72); the tokenizer is out of scope
(R6). Text is a list of characters, so that the kernel can evaluate it. Logs 13 to 16 name what the spec leaves open here. -/

namespace Sys2Proof.Machine

abbrev Text := List Char

/-- A byte span of the source (R71, R88). -/
structure Span where
  start : Nat
  stop : Nat
deriving DecidableEq, Repr

/-- A register token: a decimal index or an alias (R84). -/
inductive RegToken where
  | index (n : Nat)
  | sp
  | lr
  | pc
deriving DecidableEq, Repr

/-- The classes of an operand token (R72). A literal holds its digits, most significant first, and whether it is negated
(R85); a shift name arrives as an identifier, the class of a label reference (log 13). -/
inductive TokenKind where
  | register (r : RegToken)
  | decimal (negated : Bool) (digits : List (Fin 10))
  | hex (negated : Bool) (digits : List (Fin 16))
  | label (name : Text)
deriving DecidableEq, Repr

structure Token where
  kind : TokenKind
  span : Span
deriving DecidableEq, Repr

/-- The three kinds of physical line (R72). -/
inductive Line where
  | blank
  | labelDef (name : Text)
  | instruction (mnemonic : Text) (span : Span) (operands : List Token)
deriving DecidableEq, Repr

/-- The operand positions a missing operand is named after (R88). -/
inductive Position where
  | destination | source | operand | offset
deriving DecidableEq, Repr

/-- The six kinds of assembly error (R88). -/
inductive AssembleErrorKind where
  | missingOperand (position : Position)
  | invalidOpcode
  | invalidRegister
  | invalidLiteral
  | unknownLabel
  | trailingTokens
deriving DecidableEq, Repr

/-- An error and where it comes from (R71, R88); its message text is the host's (log 16). -/
structure AssembleError where
  kind : AssembleErrorKind
  span : Span
deriving DecidableEq, Repr

abbrev Assembled (α : Type) := Except AssembleError α

/-! ## Mnemonics -/

/-- What a mnemonic names, before its operands are read (R75). -/
inductive Mnemonic where
  | dp (op : Opcode)
  | branch (link : Bool)
deriving DecidableEq, Repr

/-- The spellings of R75 with the aliases `xor` and `or` (D25), longest first (R76, D26). -/
def spellings : List (Text × Mnemonic) :=
  [(['a', 'n', 'd'], .dp .and), (['e', 'o', 'r'], .dp .eor), (['x', 'o', 'r'], .dp .eor), (['s', 'u', 'b'], .dp .sub), (['r', 's', 'b'], .dp .rsb)] ++
  [(['a', 'd', 'd'], .dp .add), (['a', 'd', 'c'], .dp .adc), (['s', 'b', 'c'], .dp .sbc), (['r', 's', 'c'], .dp .rsc), (['t', 's', 't'], .dp .tst)] ++
  [(['t', 'e', 'q'], .dp .teq), (['c', 'm', 'p'], .dp .cmp), (['c', 'm', 'n'], .dp .cmn), (['o', 'r', 'r'], .dp .orr), (['m', 'o', 'v'], .dp .mov)] ++
  [(['b', 'i', 'c'], .dp .bic), (['m', 'v', 'n'], .dp .mvn), (['o', 'r'], .dp .orr), (['b', 'l'], .branch true), (['b'], .branch false)]

/-- The condition suffixes of R77; the empty one means AL. -/
def suffixes : List (Text × Cond) :=
  [([], .al)] ++
  [(['e', 'q'], .eq), (['n', 'e'], .ne), (['c', 's'], .cs), (['c', 'c'], .cc), (['m', 'i'], .mi)] ++
  [(['p', 'l'], .pl), (['v', 's'], .vs), (['v', 'c'], .vc), (['h', 'i'], .hi), (['l', 's'], .ls)] ++
  [(['g', 'e'], .ge), (['l', 't'], .lt), (['g', 't'], .gt), (['l', 'e'], .le), (['a', 'l'], .al)]

/-- A token without a spelling it starts with. -/
def dropSpelling : Text → Text → Option Text
  | [], t => some t
  | _ :: _, [] => none
  | c :: cs, d :: ds => if c = d then dropSpelling cs ds else none

/-- `ResolveMnemonic` (R76): case-insensitive; the first spelling, longest first, whose remainder is a suffix. -/
def resolveMnemonic (tok : Text) : Option (Mnemonic × Cond) :=
  spellings.findSome? fun sp =>
    match dropSpelling sp.1 (tok.map Char.toLower) with
    | some rest => (suffixes.lookup rest).map fun c => (sp.2, c)
    | none => none

/-! ## Tokens -/

/-- The register a token names; an index above 15 is none (R84). -/
def RegToken.toReg : RegToken → Option Reg
  | .index n => if h : n < 16 then some ⟨n, h⟩ else none
  | .sp => some Reg.sp
  | .lr => some Reg.lr
  | .pc => some Reg.pc

/-- The number a list of digits writes, most significant first (R85). -/
def digitsValue (base : Nat) (digits : List Nat) : Nat := digits.foldl (fun v d => base * v + d) 0

/-- The 32-bit value of a literal before truncation, negated modulo 2^32 (R85); over 2^32 - 1 there is none (D27). -/
def literalWord (negated : Bool) (v : Nat) : Option Word :=
  if v ≤ 2 ^ 32 - 1 then some (if negated then ~~~(BitVec.ofNat 32 v) + 1 else BitVec.ofNat 32 v) else none

/-- The register a token stands for where one is required: a token of any other class is `InvalidRegister` (R84, D32). -/
def tokenReg (t : Token) : Assembled Reg :=
  match t.kind with
  | .register r =>
    match r.toReg with
    | some reg => .ok reg
    | none => .error ⟨.invalidRegister, t.span⟩
  | .decimal _ _ | .hex _ _ | .label _ => .error ⟨.invalidRegister, t.span⟩

/-- `LiteralValue` where a literal is required, as a 32-bit value that the caller truncates (R85); a token of any other class is
`InvalidLiteral` (D32). -/
def tokenLiteral (t : Token) : Assembled Word :=
  match t.kind with
  | .decimal negated digits =>
    match literalWord negated (digitsValue 10 (digits.map Fin.val)) with
    | some w => .ok w
    | none => .error ⟨.invalidLiteral, t.span⟩
  | .hex negated digits =>
    match literalWord negated (digitsValue 16 (digits.map Fin.val)) with
    | some w => .ok w
    | none => .error ⟨.invalidLiteral, t.span⟩
  | .register _ | .label _ => .error ⟨.invalidLiteral, t.span⟩

/-- The shift a name stands for, case-insensitively (R87, D28). -/
def shiftOfName (name : Text) : Option ShiftType :=
  [(['l', 's', 'l'], ShiftType.logicalLeft), (['l', 's', 'r'], .logicalRight), (['a', 's', 'r'], .arithmeticRight),
    (['r', 'o', 'r'], .rotateRight)].lookup (name.map Char.toLower)

/-- The shift a token names, if it does. -/
def Token.shift? (t : Token) : Option ShiftType :=
  match t.kind with
  | .label name => shiftOfName name
  | .register _ | .decimal _ _ | .hex _ _ => none

/-! ## Operand shapes -/

/-- A register operand at a position: the register and the tokens after it (R78 to R80, R88). -/
def takeReg (position : Position) (line : Span) : List Token → Assembled (Reg × List Token)
  | [] => .error ⟨.missingOperand position, line⟩
  | t :: rest =>
    match tokenReg t with
    | .ok r => .ok (r, rest)
    | .error e => .error e

/-- The amount after a shift name: a literal truncated to 5 bits, or a register (R87). DESIGN CHOICE (log 14): a label here is
`InvalidLiteral`; D32 gives that kind for `#n` and `InvalidRegister` for Rs, and both may stand here. -/
def takeAmount (type : ShiftType) (rm : Reg) (line : Span) : List Token → Assembled (Operand × List Token)
  | [] => .error ⟨.missingOperand .operand, line⟩
  | t :: rest =>
    match t.kind with
    | .register _ =>
      match tokenReg t with
      | .ok rs => .ok (.shiftByReg type rs rm, rest)
      | .error e => .error e
    | .decimal _ _ | .hex _ _ | .label _ =>
      match tokenLiteral t with
      | .ok w => .ok (.shiftByImm type (w.extractLsb' 0 5) rm, rest)
      | .error e => .error e

/-- The tokens after `Rm`: a shift if a shift name comes next, else `Rm` alone, LSL by 0 (R87). -/
def takeShift (rm : Reg) (line : Span) : List Token → Assembled (Operand × List Token)
  | [] => .ok (.shiftByImm .logicalLeft 0 rm, [])
  | t :: rest =>
    match t.shift? with
    | some type => takeAmount type rm line rest
    | none => .ok (.shiftByImm .logicalLeft 0 rm, t :: rest)

/-- `<operand2>`: a register with an optional shift, or a literal truncated to 8 bits with rotate 0 (R78, R86, R87). DESIGN CHOICE
(log 14): a label here is `InvalidLiteral`. -/
def takeOperand2 (line : Span) : List Token → Assembled (Operand × List Token)
  | [] => .error ⟨.missingOperand .operand, line⟩
  | t :: rest =>
    match t.kind with
    | .register _ =>
      match tokenReg t with
      | .ok rm => takeShift rm line rest
      | .error e => .error e
    | .decimal _ _ | .hex _ _ | .label _ =>
      match tokenLiteral t with
      | .ok w => .ok (.immediate 0 (w.extractLsb' 0 8), rest)
      | .error e => .error e

/-- No operand may be left over (R88). -/
def noTrailing : List Token → Assembled Unit
  | [] => .ok ()
  | t :: _ => .error ⟨.trailingTokens, t.span⟩

/-- The last operand2 of a line, with nothing after it. -/
def lastOperand2 (line : Span) (ts : List Token) : Assembled Operand :=
  match takeOperand2 line ts with
  | .error e => .error e
  | .ok (operand, rest) =>
    match noTrailing rest with
    | .ok _ => .ok operand
    | .error e => .error e

/-- The three operand shapes of data processing (R78 to R80). -/
inductive DpShape where
  | threeOperand | compare | move
deriving DecidableEq, Repr

/-- The shape of each opcode (R75); SBC's is D24. -/
def Opcode.shape (op : Opcode) : DpShape :=
  match op with
  | .tst | .teq | .cmp | .cmn => .compare
  | .mov | .mvn => .move
  | .and | .eor | .sub | .rsb | .add | .adc | .sbc | .rsc | .orr | .bic => .threeOperand

/-- The body of a data-processing line: S is 1 (R83), and the field a shape does not give is register 0 (R79, R80). -/
def assembleDp (op : Opcode) (line : Span) (ts : List Token) : Assembled Body :=
  match Opcode.shape op with
  | .threeOperand =>
    match takeReg .destination line ts with
    | .error e => .error e
    | .ok (rd, ts1) =>
      match takeReg .source line ts1 with
      | .error e => .error e
      | .ok (rn, ts2) => (lastOperand2 line ts2).map (.dataProcessing op true rn rd)
  | .compare =>
    match takeReg .source line ts with
    | .error e => .error e
    | .ok (rn, ts1) => (lastOperand2 line ts1).map (.dataProcessing op true rn 0)
  | .move =>
    match takeReg .destination line ts with
    | .error e => .error e
    | .ok (rd, ts1) => (lastOperand2 line ts1).map (.dataProcessing op true 0 rd)

/-- The labels bound so far, the latest first: a later definition of a name hides an earlier one (R73). -/
abbrev Labels := List (Text × Nat)

/-- `LabelOffset` (R82), truncated to 24 bits (D33). -/
def labelOffset (labelAddr cur : Nat) : BitVec 24 :=
  (BitVec.ofNat 32 (labelAddr / 4) - (BitVec.ofNat 32 (cur / 4) + 1)).extractLsb' 0 24

/-- The body of a branch line: a literal truncated to 24 bits, or a label (R81, R82). A register is `InvalidLiteral` (D32). -/
def assembleBranch (link : Bool) (line : Span) (cur : Nat) (labels : Labels) : List Token → Assembled Body
  | [] => .error ⟨.missingOperand .offset, line⟩
  | t :: rest =>
    match t.kind with
    | .label name =>
      match labels.lookup name with
      | some a => (noTrailing rest).map fun _ => .branch link (labelOffset a cur)
      | none => .error ⟨.unknownLabel, t.span⟩
    | .decimal _ _ | .hex _ _ | .register _ =>
      match tokenLiteral t with
      | .ok w => (noTrailing rest).map fun _ => .branch link (w.extractLsb' 0 24)
      | .error e => .error e

/-- One instruction line (R74). -/
def assembleOne (mnemonic : Text) (line : Span) (operands : List Token) (cur : Nat) (labels : Labels) : Assembled Instr :=
  match resolveMnemonic mnemonic with
  | none => .error ⟨.invalidOpcode, line⟩
  | some (.dp op, c) => (assembleDp op line operands).map fun body => Instr.ofInstruction ⟨c, body⟩
  | some (.branch link, c) => (assembleBranch link line cur labels operands).map fun body => Instr.ofInstruction ⟨c, body⟩

/-! ## The two passes -/

/-- Pass 1 (R73): the labels' addresses, from an address counter. -/
def pass1 : List Line → Nat → Labels → Labels
  | [], _, labels => labels
  | .blank :: rest, addr, labels => pass1 rest addr labels
  | .labelDef name :: rest, addr, labels => pass1 rest addr ((name, addr) :: labels)
  | .instruction _ _ _ :: rest, addr, labels => pass1 rest (addr + 4) labels

/-- Pass 2 (R74): the instructions, from an address counter; an error ends the whole assembly (R71). -/
def pass2 : List Line → Nat → Labels → Assembled (List Instr)
  | [], _, _ => .ok []
  | .blank :: rest, addr, labels => pass2 rest addr labels
  | .labelDef _ :: rest, addr, labels => pass2 rest addr labels
  | .instruction mnemonic line operands :: rest, addr, labels =>
    match assembleOne mnemonic line operands addr labels with
    | .error e => .error e
    | .ok i => (pass2 rest (addr + 4) labels).map (i :: ·)

/-- `assemble` (R71): a Program, or one error. -/
def assemble (lines : List Line) : Assembled (List Instr) := pass2 lines 0 (pass1 lines 0 [])

/-- Lint mode (R89): each line on its own, with a label table of placeholder addresses; an error or nothing, and no word. -/
def lint (lines : List Line) : List (Option AssembleError) :=
  lines.map fun l =>
    match l with
    | .blank | .labelDef _ => none
    | .instruction mnemonic line operands =>
      match assembleOne mnemonic line operands 0 (pass1 lines 0 []) with
      | .ok _ => none
      | .error e => some e

end Sys2Proof.Machine
end

