-- ==== Sys2Proof/Machine/Boundary.lean ====
section
/-! DEFINITION. The engine's interface as one call: `step(ram, registers, flags_byte) -> Result<flags_byte, message>`
(spec/40_execution_cycle.md R100). The message text is the host's (log 16). -/

namespace Sys2Proof.Machine

/-- The ProcessorState the call is given: the upper four bits of the flags byte are ignored (spec/10_state.md R25). -/
def stateOfCall (ram : Memory) (registers : Vector Word 16) (flagsByte : Byte) : State :=
  ⟨registers, Flags.unpack flagsByte, ram⟩

/-- One call: the register file updated in place and the new packed flags byte, or the error. The ram is not part of the answer:
the engine never writes it (R33, R100). -/
def stepCall (ram : Memory) (registers : Vector Word 16) (flagsByte : Byte) :
    Host.Outcome (Vector Word 16 × Byte) Fault Refusal :=
  match step (stateOfCall ram registers flagsByte) with
  | .next t => .next (t.regs, t.flags.pack)
  | .fault e => .fault e
  | .refused r => .refused r

end Sys2Proof.Machine
end

