-- ==== Sys2Proof/Machine/Serialize.lean ====
section
/-! DEFINITION. Program loading, the host's side (spec/20_memory.md R46, R47): a Program is a list of instructions, and
instruction `i` occupies bytes `4*i` to `4*i + 3`. -/

namespace Sys2Proof.Machine

/-- The whole buffer set to zero (R46, D31); an unlisted byte reads as zero (log 4). -/
def Memory.clear (m : Memory) : Memory := { m with cells := [] }

/-- The instructions' words laid one after another from an address on (R46). -/
def Memory.writeProgram (m : Memory) (a : Nat) : List Instr → Memory
  | [] => m
  | i :: rest => (m.writeWord a (encode i)).writeProgram (a + 4) rest

/-- `serialize(Program, byte_buffer)` (R46): the buffer is cleared first, and one too short is refused with nothing written
(D31). -/
def serialize (p : List Instr) (m : Memory) : Option Memory :=
  if programFits p m.size then some (m.clear.writeProgram 0 p) else none

end Sys2Proof.Machine
end

