-- ==== Sys2Proof/Machine/Session.lean ====
section
/-! DEFINITION. What the host can do between steps, and the one total order of its acts and the core's steps
(spec/20_memory.md R41, R44; spec/60_exceptions.md R184, R188). The host cannot act inside a step (R38), and MEM_SIZE stays fixed
(spec/70_reset_and_hazards.md R199). -/

namespace Sys2Proof.Machine

/-- One act of the host on the state it owns (log 11). -/
inductive HostAction where
  /-- `MemWrite` of one byte (R12, R33). -/
  | writeByte (a : Word) (b : Byte)
  /-- Any register, the pc among them. -/
  | writeRegister (r : Reg) (v : Word)
  /-- The flags, as a packed byte. -/
  | writeFlags (flagsByte : Byte)
  /-- `serialize` of a program into the memory; a refused one changes nothing (R46). -/
  | loadProgram (p : List Instr)
deriving DecidableEq, Repr

/-- The state after an act of the host. -/
def HostAction.apply (h : HostAction) (s : State) : State :=
  match h with
  | .writeByte a b => s.setMem (s.mem.writeByte a.toNat b)
  | .writeRegister r v => s.setX r v
  | .writeFlags b => s.setFlags (Flags.unpack b)
  | .loadProgram p =>
    match serialize p s.mem with
    | some m => s.setMem m
    | none => s

/-- What happens next in a session: an act of the host, or one call of `step`. -/
inductive Event where
  | host (h : HostAction)
  | step
deriving DecidableEq, Repr

/-- A session: the state it ends in, and the errors its steps returned, oldest first. A failed step leaves the state as it was, and
the host may go on (R184, R188). -/
def session : List Event → State → State × List Fault
  | [], s => (s, [])
  | .host h :: rest, s => session rest (h.apply s)
  | .step :: rest, s =>
    match Sys2Proof.Machine.step s with
    | .next t => session rest t
    | .fault e => ((session rest s).1, e :: (session rest s).2)
    | .refused _ => session rest s

end Sys2Proof.Machine
end

