-- ==== Sys2Proof/Machine/Ports.lean ====
section
/-! DEFINITION. The step as one combinational transaction, started by the host and with no clock: the ports of
spec/40_execution_cycle.md R100 (D16), computed from the Instruction value by the generic ExecDP and ExecBranch of R120 and
R146. "They add no behaviour to the step". -/

namespace Sys2Proof.Machine

/-- The ALU by opcode: the table of R127. -/
def alu (op : Opcode) (lhs rhs : Word) (f : Flags) : AluOut :=
  match op with
  | .and => aluAnd lhs rhs f
  | .eor => aluEor lhs rhs f
  | .sub => aluSub lhs rhs f
  | .rsb => aluRsb lhs rhs f
  | .add => aluAdd lhs rhs f
  | .adc => aluAdc lhs rhs f
  | .sbc => aluSbc lhs rhs f
  | .rsc => aluRsc lhs rhs f
  | .tst => aluTst lhs rhs f
  | .teq => aluTeq lhs rhs f
  | .cmp => aluCmp lhs rhs f
  | .cmn => aluCmn lhs rhs f
  | .orr => aluOrr lhs rhs f
  | .mov => aluMov lhs rhs f
  | .bic => aluBic lhs rhs f
  | .mvn => aluMvn lhs rhs f

/-- Whether an opcode writes Rd: the "writes Rd" column of R127. -/
def writesRd (op : Opcode) : Bool :=
  match op with
  | .tst | .teq | .cmp | .cmn => false
  | .and | .eor | .sub | .rsb | .add | .adc | .sbc | .rsc | .orr | .mov | .bic | .mvn => true

/-- Whether an opcode reads Rn: MOV and MVN do not (spec/10_state.md R17, R121). -/
def readsRn (op : Opcode) : Bool :=
  match op with
  | .mov | .mvn => false
  | .and | .eor | .sub | .rsb | .add | .adc | .sbc | .rsc | .tst | .teq | .cmp | .cmn | .orr | .bic => true

/-- The registers an operand names: Rm, and Rs where the amount is a register's (R17, R122). -/
def Operand.sources : Operand → List Reg
  | .immediate _ _ => []
  | .shiftByImm _ _ rm => [rm]
  | .shiftByReg _ rs rm => [rm, rs]

/-- The registers a body reads besides the pc: Rn, Rm, Rs (R17). -/
def Body.sources : Body → List Reg
  | .dataProcessing op _ rn _ operand => (if readsRn op then [rn] else []) ++ Operand.sources operand
  | .branch _ _ => []

/-- The ports of R100. An optional port is absent while its enable is off (log 12). -/
structure Ports where
  fetchAddr : Word
  fetchValid : Bool
  /-- Without a meaning while `fetchValid` is off. -/
  fetchWord : Word
  /-- `rf_rd_addr`, `rf_rd_data`: up to three reads. -/
  rfRd : List (Reg × Word)
  /-- `rf_wr_en`, `rf_wr_addr`, `rf_wr_data`: at most one register besides the pc. -/
  rfWr : Option (Reg × Word)
  pcNext : Word
  flagsIn : Flags
  flagsOut : Flags
  /-- `none` as 0, then the codes of R180. -/
  err : BitVec 2
deriving DecidableEq, Repr

/-- The ports while no write is enabled: `pc_next` is given (R100). -/
def idlePorts (s : State) (pcNext : Word) (err : BitVec 2) : Ports where
  fetchAddr := s.pc
  fetchValid := s.mem.inBounds s.pc.toNat
  fetchWord := s.mem.fetchWord s.pc.toNat
  rfRd := []
  rfWr := none
  pcNext := pcNext
  flagsIn := s.flags
  flagsOut := s.flags
  err := err

/-- The result of ExecDP's ALU at a state (R120). -/
def dpOut (op : Opcode) (rn : Reg) (operand : Operand) (s : State) : AluOut := alu op (s.x rn) (operand2 operand s) s.flags

/-- The ports of an instruction whose condition holds (R105, R107). A write of Rd = 15 goes to `pc_next` alone, with the 4 of the generic
advance (R107, D14). -/
def bodyPorts (s : State) (body : Body) : Ports :=
  match body with
  | .dataProcessing op _ rn rd operand =>
    { idlePorts s (s.pc + 4) 0 with
      rfRd := (Body.sources body).map fun r => (r, s.x r)
      rfWr := if writesRd op && rd != Reg.pc then some (rd, (dpOut op rn operand s).result) else none
      pcNext := (if writesRd op && rd == Reg.pc then (dpOut op rn operand s).result else s.pc) + 4
      flagsOut := (dpOut op rn operand s).flags }
  | .branch link offset =>
    { idlePorts s (branchTarget s.pc offset) 0 with
      rfWr := if link then some (Reg.lr, linkValue s.pc) else none }

/-- The ports of one step (R100, R109). While `err` is on, no write port is enabled and `pc_next = fetch_addr`. -/
def ports (s : State) : Ports :=
  match s.fetchInstr with
  | .error e => idlePorts s s.pc (BitVec.ofNat 2 e.code)
  | .ok i =>
    if condHolds i.cond s.flags then bodyPorts s i.toInstruction.body else idlePorts s (s.pc + 4) 0

/-- The register file and flags after the transaction the ports show. -/
def Ports.commit (p : Ports) (s : State) : State :=
  let written := match p.rfWr with
    | some (r, v) => s.setX r v
    | none => s
  (written.setFlags p.flagsOut).setPc p.pcNext

/-- The step read off the ports: the commit, or the error `err` names with the values it records (R180). -/
def stepByPorts (s : State) : Result :=
  match (ports s).err.toNat with
  | 0 => .next ((ports s).commit s)
  | 1 => .fault (.fetchError (ports s).fetchAddr)
  | 2 => .fault (.invalidCondition (ports s).fetchAddr (ports s).fetchWord)
  | _ => .fault (.reservedClass (ports s).fetchAddr (ports s).fetchWord)

end Sys2Proof.Machine
end

