-- ==== Sys2Proof/Safety.lean ====
section
/-! DEFINITION. The terms claims about runs are written in: which registers an instruction reads and writes
(spec/10_state.md R17), what a safe step is, and the invariants. -/

namespace Sys2Proof

/-- The register an instruction writes besides the pc's own advance, when its condition holds: Rd of the ten opcodes that write it
and of MOV and MVN, 14 for BL, none for the others (R17). -/
def Instr.dest (i : Instr) : Option Reg :=
  match i.toInstruction.body with
  | .dataProcessing op _ _ rd _ => if Machine.writesRd op then some rd else none
  | .branch true _ => some Reg.lr
  | .branch false _ => none

/-- The registers an instruction reads besides the pc, when its condition holds (R17). -/
def Instr.sources (i : Instr) : List Reg := Machine.Body.sources i.toInstruction.body

/-- The instruction is of the Branch class (R50). -/
def Instr.isBranch (i : Instr) : Bool :=
  match i.toInstruction.body with
  | .branch _ _ => true
  | .dataProcessing _ _ _ _ _ => false

namespace Machine

/-- A step is safe when it answers a next state: it neither fails nor is refused. -/
def State.stepsSafely (s : State) : Prop := ∃ t, step s = .next t

/-- The memory is in its canonical form and no larger than the address space (spec/20_memory.md R31). -/
def State.memOk (s : State) : Prop := s.mem.wf = true

/-- No word at a multiple of 4 decodes to a data-processing instruction that writes R15: "A program that writes R15 only through
B and BL" (spec/10_state.md R22). -/
def Memory.branchesOnly (m : Memory) : Prop :=
  ∀ k i, decode (m.fetchWord (4 * k)) = .ok i → i.dest ≠ some Reg.pc

/-- The pc is a multiple of 4 and the program in memory keeps it so (R22). -/
def State.aligned (s : State) : Prop := s.pc.toNat % 4 = 0 ∧ s.mem.branchesOnly

end Machine
end Sys2Proof
end

