-- ==== Sys2Proof/Certificates/Slice0/Obligations.lean ====
section
/-! DEFINITION. The statements for the provers. They come from the numbered rules of spec/; each docstring names the rule or the
sections it rests on. -/

namespace Sys2Proof.Claim

open Sys2Proof.Machine

/-- The exact value lies outside the 32-bit two's-complement range. -/
def outOfRange (t : Int) : Bool := decide (t < -(2 ^ 31) ∨ 2 ^ 31 ≤ t)

/-- 1 for a set flag, 0 for a clear one. -/
def flagNat (b : Bool) : Nat := if b then 1 else 0

/-- Memory is as before: its size, and the read of every byte. -/
def SameMemory (s t : State) : Prop := t.mem.size = s.mem.size ∧ ∀ a, t.mem.readByte a = s.mem.readByte a

/-- A data-processing instruction completes with result `r` (R120, R126, R145): the next state has `r` in the register written, if one is,
every other register but the pc as before, the pc moved on by 4 (from `r` when the pc is the register written), N and Z from `r`,
C and V as given, and memory as before. -/
def Completes (s : State) (rd : Option Reg) (r : Word) (c v : Bool) (o : Result) : Prop :=
  ∃ t, o = .next t ∧
    (∀ q, q ≠ Reg.pc → t.x q = if rd = some q then r else s.x q) ∧
    t.pc = (if rd = some Reg.pc then r else s.pc) + 4 ∧
    t.flags = ⟨r.getLsbD 31, decide (r = 0), c, v⟩ ∧
    SameMemory s t

/-- A property of the second operand and the outcome, for the three operand forms of an opcode (R122, R123): an immediate, a register
shifted by an immediate, a register shifted by the low byte of a register. -/
def AllForms (s : State) (imm : BitVec 4 → BitVec 8 → Instr) (rsi : ShiftType → BitVec 5 → Reg → Instr)
    (rsr : ShiftType → Reg → Reg → Instr) (P : Word → Result → Prop) : Prop :=
  (∀ rotate value, P (immOperand rotate value) (exec (imm rotate value) s)) ∧
  (∀ type amount rm, P (shift type (s.x rm) amount.toNat) (exec (rsi type amount rm) s)) ∧
  (∀ type rs rm, P (shift type (s.x rm) ((s.x rs).toNat % 256)) (exec (rsr type rs rm) s))

/-- The four bytes of a word lie at an address, the most significant first, inside memory (R34, R37). -/
def WordAt (m : Memory) (a : Nat) (w : Word) : Prop :=
  a + 4 ≤ m.size ∧ m.readByte a = w.extractLsb' 24 8 ∧ m.readByte (a + 1) = w.extractLsb' 16 8 ∧
    m.readByte (a + 2) = w.extractLsb' 8 8 ∧ m.readByte (a + 3) = w.extractLsb' 0 8

/-- The word at the pc, inside memory, is `w`, and a step decodes exactly it: to an instruction it executes, or to the error it reports with
the pc and the word (R101, R102, R181). -/
def StepDecodes (s : State) (w : Word) : Prop :=
  s.pc.toNat + 4 ≤ s.mem.size ∧ s.mem.fetchWord s.pc.toNat = w ∧ (∀ i, decode w = .ok i → step s = exec i s) ∧
    (decode w = .error .invalidCondition → step s = .fault (.invalidCondition s.pc w)) ∧
    (decode w = .error .reservedClass → step s = .fault (.reservedClass s.pc w))

/-- The lines of a source that are instructions. -/
def instructionLines (lines : List Line) : List Line :=
  lines.filter fun l => match l with
    | .instruction _ _ _ => true
    | .blank | .labelDef _ => false

/-- The S bit of a data-processing instruction. -/
def sBit (i : Instr) : Option Bool :=
  match i.toInstruction.body with
  | .dataProcessing _ s _ _ _ => some s
  | .branch _ _ => none

/-- The rotate field of an immediate operand. -/
def rotateField (i : Instr) : Option (BitVec 4) :=
  match i.toInstruction.body with
  | .dataProcessing _ _ _ _ (.immediate rotate _) => some rotate
  | .dataProcessing _ _ _ _ (.shiftByImm _ _ _) | .dataProcessing _ _ _ _ (.shiftByReg _ _ _) | .branch _ _ => none

end Sys2Proof.Claim

open Sys2Proof Sys2Proof.Machine Sys2Proof.Claim

/-- Ten words of table L2.1 and the seven error words decode as the spec lists them, words with a set ignored bit among them.
(derived: 95_test_vectors.md L2.1) -/
def Obligations.SpecWordsDecodeAsListed : Prop :=
  decode 0xE3B00001#32 = .ok (.movImm .al true 0 0 0 1) ∧
  decode 0xE0901000#32 = .ok (.addRsi .al true 0 1 .logicalLeft 0 0) ∧
  decode 0x0A00000A#32 = .ok (.bl .eq 5) ∧
  decode 0xE9000000#32 = .ok (.b .al 0x800000) ∧
  decode 0xE1943635#32 = .ok (.orrRsr .al true 4 3 .logicalRight 6 5) ∧
  decode 0xE19436B5#32 = .ok (.orrRsr .al true 4 3 .logicalRight 6 5) ∧
  decode 0xE0502FC1#32 = .ok (.subRsi .al true 0 2 .arithmeticRight 31 1) ∧
  decode 0xE1B03271#32 = .ok (.movRsr .al true 0 3 .rotateRight 2 1) ∧
  decode 0xE2800F01#32 = .ok (.addImm .al false 0 0 15 1) ∧
  decode 0xE9FFFFFF#32 = .ok (.b .al 0xFFFFFF) ∧
  decode 0xF0000000#32 = .error .invalidCondition ∧
  decode 0xF8000000#32 = .error .invalidCondition ∧
  decode 0xFC000000#32 = .error .invalidCondition ∧
  decode 0x04000000#32 = .error .reservedClass ∧
  decode 0x0C000000#32 = .error .reservedClass ∧
  decode 0xEE000000#32 = .error .reservedClass ∧
  decode 0xD5A5A5A5#32 = .error .reservedClass

/-- For every instruction i, of all 50 rows and with every field at every value it can hold, decode (encode i) is i.
(stated: R63) -/
def Obligations.DecodeInvertsEncode : Prop :=
  ∀ i : Instr, decode (encode i) = .ok i

/-- If decode w = i, then encode i is w with the ignored bits of w's form cleared, and is w exactly when those bits are 0; if two words decode to the same instruction, they are equal, or differ exactly in w[7] of the by-register shift form, or exactly in w[0] of the Branch form.
(stated: R64) -/
def Obligations.ReencodingClearsOnlyIgnoredBits : Prop :=
  ∀ (w : Word) (i : Instr), decode w = .ok i →
    encode i = w &&& ~~~ignoredBits w ∧
    (encode i = w ↔ w &&& ignoredBits w = 0) ∧
    ∀ w' : Word, decode w' = .ok i →
      w' = w ∨ (isShiftByRegForm w = true ∧ w' = w ^^^ 0x80#32) ∨ (isBranchForm w = true ∧ w' = w ^^^ 0x01#32)

/-- decode w is the error InvalidCondition exactly when w[31:28] = 1111; it is ReservedClass exactly when w[31:28] is not 1111 and w[27:26] is 01 or 11; otherwise it is an instruction.
(stated: R61) -/
def Obligations.DecodeFailsInExactlyTwoCases : Prop :=
  ∀ w : Word,
    (decode w = .error .invalidCondition ↔ w.toNat / 2 ^ 28 = 15) ∧
    (decode w = .error .reservedClass ↔
      w.toNat / 2 ^ 28 ≠ 15 ∧ (w.toNat / 2 ^ 26 % 4 = 1 ∨ w.toNat / 2 ^ 26 % 4 = 3)) ∧
    ((∃ i, decode w = .ok i) ↔ w.toNat / 2 ^ 28 ≠ 15 ∧ (w.toNat / 2 ^ 26 % 4 = 0 ∨ w.toNat / 2 ^ 26 % 4 = 2))

/-- A word of the by-register shift form decodes as it does with w[7] flipped, a word of the Branch form as it does with w[0] flipped, and encode writes 0 to that bit.
(stated: R62) -/
def Obligations.IgnoredBitsDoNotMatter : Prop :=
  (∀ w : Word, isShiftByRegForm w = true → decode (w ^^^ 0x80#32) = decode w) ∧
  (∀ w : Word, isBranchForm w = true → decode (w ^^^ 0x01#32) = decode w) ∧
  (∀ i : Instr, (isShiftByRegForm (encode i) = true → (encode i).getLsbD 7 = false) ∧
    (isBranchForm (encode i) = true → (encode i).getLsbD 0 = false))

/-- For every word w and every row name n: w matches the row n of spec/opcode_table.json (w & mask = match and the condition is not 1111) exactly when decode w is an instruction whose row is n.
(derived: 30_encoding.md, How to read opcode_table.json, 30_encoding.md 7. Opcode map, reserved and hint space) -/
def Obligations.OpcodeTableAgreesWithDecoder : Prop :=
  ∀ (w : Word) (n : RowName),
    (∃ row ∈ opcodeTable, row.name = n ∧ row.matchesWord w = true) ↔ (∃ i, decode w = .ok i ∧ i.row = n)

/-- EQ=Z, NE=not Z, CS=C, CC=not C, MI=N, PL=not N, VS=V, VC=not V, HI=C and not Z, LS=not C or Z, GE: N=V, LT: N≠V, GT: not Z and N=V, LE: Z or N≠V, AL always.
(stated: R103) -/
def Obligations.ConditionPredicates : Prop :=
  ∀ f : Flags,
    (condHolds .eq f = true ↔ f.z = true) ∧ (condHolds .ne f = true ↔ f.z = false) ∧
    (condHolds .cs f = true ↔ f.c = true) ∧ (condHolds .cc f = true ↔ f.c = false) ∧
    (condHolds .mi f = true ↔ f.n = true) ∧ (condHolds .pl f = true ↔ f.n = false) ∧
    (condHolds .vs f = true ↔ f.v = true) ∧ (condHolds .vc f = true ↔ f.v = false) ∧
    (condHolds .hi f = true ↔ f.c = true ∧ f.z = false) ∧ (condHolds .ls f = true ↔ f.c = false ∨ f.z = true) ∧
    (condHolds .ge f = true ↔ f.n = f.v) ∧ (condHolds .lt f = true ↔ f.n ≠ f.v) ∧
    (condHolds .gt f = true ↔ f.z = false ∧ f.n = f.v) ∧ (condHolds .le f = true ↔ f.z = true ∨ f.n ≠ f.v) ∧
    condHolds .al f = true

/-- For every instruction and every state in which its condition is false, exec answers a next state with the pc 4 further on, modulo 2^32, and every other register, every flag and all of memory as before.
(stated: R104) -/
def Obligations.FalseConditionOnlyAdvances : Prop :=
  ∀ (i : Instr) (s : State), condHolds i.cond s.flags = false →
    ∃ t, exec i s = .next t ∧ t.pc = s.pc + 4 ∧ (∀ q, q ≠ Reg.pc → t.x q = s.x q) ∧ t.flags = s.flags ∧ SameMemory s t

/-- The operand is rotl32(zext(value), rotate); no bit wraps, so its value is value * 2^rotate, at most 0x007F8000, and bits 31 to 23 are clear. (Config.immRotation is the spec's default, log 7.)
(derived: 41_data_processing.md rule R123, 93_implementation_defined.md Part 1 row 11) -/
def Obligations.ImmediateOperandRotatesLeft : Prop :=
  ∀ (rotate : BitVec 4) (value : BitVec 8),
    immOperand rotate value = (value.setWidth 32).rotateLeft rotate.toNat ∧
    (immOperand rotate value).toNat = value.toNat * 2 ^ rotate.toNat ∧
    immOperand rotate value ≤ 0x007F8000#32 ∧
    ∀ k, 23 ≤ k → (immOperand rotate value).getLsbD k = false

/-- LSL by n is multiplication by 2^n modulo 2^32, LSR by n is division by 2^n, ASR by n is floor division of the signed value by 2^n, ROR by n moves bit (k + n) mod 32 to bit k; by 32 or more LSL and LSR give 0 and ASR gives 32 copies of the sign bit; 0 is the identity.
(stated: R124) -/
def Obligations.ShiftUnitIsExact : Prop :=
  ∀ (v : Word) (n : Nat),
    (shift .logicalLeft v n).toNat = v.toNat * 2 ^ n % 2 ^ 32 ∧
    (shift .logicalRight v n).toNat = v.toNat / 2 ^ n ∧
    (shift .arithmeticRight v n).toInt = v.toInt / 2 ^ n ∧
    (∀ k, k < 32 → (shift .rotateRight v n).getLsbD k = v.getLsbD ((k + n) % 32)) ∧
    (32 ≤ n → shift .logicalLeft v n = 0 ∧ shift .logicalRight v n = 0 ∧
      shift .arithmeticRight v n = if v.getLsbD 31 then 0xFFFFFFFF#32 else 0#32) ∧
    (∀ type, shift type v 0 = v)

/-- A register operand is x[Rm] shifted by the 5-bit immediate amount, or by the low byte of x[Rs] as it stands in the state the step began with.
(stated: R122) -/
def Obligations.RegisterOperandAmount : Prop :=
  ∀ (s : State) (type : ShiftType) (amount : BitVec 5) (rs rm : Reg),
    operand2 (.shiftByImm type amount rm) s = shift type (s.x rm) amount.toNat ∧
    operand2 (.shiftByReg type rs rm) s = shift type (s.x rm) ((s.x rs).toNat % 256)

/-- AddWithCarry: result plus 2^32 times carry is the exact unsigned sum; overflow is off exactly when the result, read as signed, is the exact signed sum. SubWithBorrow: result minus 2^32 times the borrow is the exact unsigned difference a - b - (1 - cin); overflow is off exactly when the result, read as signed, is the exact signed difference.
(stated: R125) -/
def Obligations.ArithmeticHelpersAreExact : Prop :=
  ∀ (a b : Word) (cin : Bool),
    (addWithCarry a b cin).result.toNat + 2 ^ 32 * flagNat (addWithCarry a b cin).carry = a.toNat + b.toNat + flagNat cin ∧
    ((addWithCarry a b cin).overflow = false ↔
      (addWithCarry a b cin).result.toInt = a.toInt + b.toInt + flagNat cin) ∧
    ((subWithBorrow a b cin).result.toNat : Int) - 2 ^ 32 * flagNat (!(subWithBorrow a b cin).carry) =
      a.toNat - b.toNat - flagNat (!cin) ∧
    ((subWithBorrow a b cin).overflow = false ↔
      (subWithBorrow a b cin).result.toInt = a.toInt - b.toInt - flagNat (!cin))

/-- When its condition holds, AND.imm, AND.rsi and AND.rsr complete in every state: x[Rd] is x[Rn] AND the operand; N and Z from it; C and V unchanged; every other register and memory are as before, and the pc moves on by 4 (result plus 4 when R15 is written).
(stated: R128) -/
def Obligations.AndWritesBitwiseAnd : Prop :=
  ∀ (s : State) (c : Cond) (sb : Bool) (rn rd : Reg), condHolds c s.flags = true →
    AllForms s (.andImm c sb rn rd) (.andRsi c sb rn rd) (.andRsr c sb rn rd) fun rhs o =>
      Completes s (some rd) (s.x rn &&& rhs) (s.flags.c)
        (s.flags.v) o

/-- When its condition holds, EOR.imm, EOR.rsi and EOR.rsr complete in every state: x[Rd] is x[Rn] XOR the operand; N and Z from it; C and V unchanged; every other register and memory are as before, and the pc moves on by 4 (result plus 4 when R15 is written).
(stated: R129) -/
def Obligations.EorWritesExclusiveOr : Prop :=
  ∀ (s : State) (c : Cond) (sb : Bool) (rn rd : Reg), condHolds c s.flags = true →
    AllForms s (.eorImm c sb rn rd) (.eorRsi c sb rn rd) (.eorRsr c sb rn rd) fun rhs o =>
      Completes s (some rd) (s.x rn ^^^ rhs) (s.flags.c)
        (s.flags.v) o

/-- When its condition holds, SUB.imm, SUB.rsi and SUB.rsr complete in every state: x[Rd] is x[Rn] minus the operand; C is no-borrow (unsigned x[Rn] >= operand), V the true signed overflow; every other register and memory are as before, and the pc moves on by 4 (result plus 4 when R15 is written).
(stated: R130) -/
def Obligations.SubWritesDifference : Prop :=
  ∀ (s : State) (c : Cond) (sb : Bool) (rn rd : Reg), condHolds c s.flags = true →
    AllForms s (.subImm c sb rn rd) (.subRsi c sb rn rd) (.subRsr c sb rn rd) fun rhs o =>
      Completes s (some rd) (s.x rn - rhs) (decide (rhs.toNat ≤ (s.x rn).toNat))
        (outOfRange ((s.x rn).toInt - rhs.toInt)) o

/-- When its condition holds, RSB.imm, RSB.rsi and RSB.rsr complete in every state: x[Rd] is the operand minus x[Rn]; C is no-borrow (unsigned operand >= x[Rn]), V the true signed overflow; every other register and memory are as before, and the pc moves on by 4 (result plus 4 when R15 is written).
(stated: R131) -/
def Obligations.RsbWritesReverseDifference : Prop :=
  ∀ (s : State) (c : Cond) (sb : Bool) (rn rd : Reg), condHolds c s.flags = true →
    AllForms s (.rsbImm c sb rn rd) (.rsbRsi c sb rn rd) (.rsbRsr c sb rn rd) fun rhs o =>
      Completes s (some rd) (rhs - s.x rn) (decide ((s.x rn).toNat ≤ rhs.toNat))
        (outOfRange (rhs.toInt - (s.x rn).toInt)) o

/-- When its condition holds, ADD.imm, ADD.rsi and ADD.rsr complete in every state: x[Rd] is x[Rn] plus the operand; C is the unsigned overflow, V the true signed overflow; every other register and memory are as before, and the pc moves on by 4 (result plus 4 when R15 is written).
(stated: R132) -/
def Obligations.AddWritesSum : Prop :=
  ∀ (s : State) (c : Cond) (sb : Bool) (rn rd : Reg), condHolds c s.flags = true →
    AllForms s (.addImm c sb rn rd) (.addRsi c sb rn rd) (.addRsr c sb rn rd) fun rhs o =>
      Completes s (some rd) (s.x rn + rhs) (decide (2 ^ 32 ≤ (s.x rn).toNat + rhs.toNat))
        (outOfRange ((s.x rn).toInt + rhs.toInt)) o

/-- When its condition holds, ADC.imm, ADC.rsi and ADC.rsr complete in every state: x[Rd] is x[Rn] plus the operand plus the old C; C is the unsigned overflow of the three-term sum, V its true signed overflow; every other register and memory are as before, and the pc moves on by 4 (result plus 4 when R15 is written).
(stated: R133) -/
def Obligations.AdcWritesSumWithCarry : Prop :=
  ∀ (s : State) (c : Cond) (sb : Bool) (rn rd : Reg), condHolds c s.flags = true →
    AllForms s (.adcImm c sb rn rd) (.adcRsi c sb rn rd) (.adcRsr c sb rn rd) fun rhs o =>
      Completes s (some rd) (s.x rn + rhs + BitVec.ofNat 32 (flagNat s.flags.c)) (decide (2 ^ 32 ≤ (s.x rn).toNat + rhs.toNat + flagNat s.flags.c))
        (outOfRange ((s.x rn).toInt + rhs.toInt + flagNat s.flags.c)) o

/-- When its condition holds, SBC.imm, SBC.rsi and SBC.rsr complete in every state: x[Rd] is x[Rn] minus the operand plus the old C minus 1; C is no-borrow of the whole subtraction (D10), V its true signed overflow; every other register and memory are as before, and the pc moves on by 4 (result plus 4 when R15 is written).
(stated: R134) -/
def Obligations.SbcWritesDifferenceWithBorrow : Prop :=
  ∀ (s : State) (c : Cond) (sb : Bool) (rn rd : Reg), condHolds c s.flags = true →
    AllForms s (.sbcImm c sb rn rd) (.sbcRsi c sb rn rd) (.sbcRsr c sb rn rd) fun rhs o =>
      Completes s (some rd) (s.x rn - rhs + BitVec.ofNat 32 (flagNat s.flags.c) - 1) (decide (rhs.toNat + flagNat (!s.flags.c) ≤ (s.x rn).toNat))
        (outOfRange ((s.x rn).toInt - rhs.toInt - flagNat (!s.flags.c))) o

/-- When its condition holds, RSC.imm, RSC.rsi and RSC.rsr complete in every state: x[Rd] is the operand minus x[Rn] plus the old C minus 1; C is no-borrow of the whole subtraction (D10), V its true signed overflow; every other register and memory are as before, and the pc moves on by 4 (result plus 4 when R15 is written).
(stated: R135) -/
def Obligations.RscWritesReverseDifferenceWithBorrow : Prop :=
  ∀ (s : State) (c : Cond) (sb : Bool) (rn rd : Reg), condHolds c s.flags = true →
    AllForms s (.rscImm c sb rn rd) (.rscRsi c sb rn rd) (.rscRsr c sb rn rd) fun rhs o =>
      Completes s (some rd) (rhs - s.x rn + BitVec.ofNat 32 (flagNat s.flags.c) - 1) (decide ((s.x rn).toNat + flagNat (!s.flags.c) ≤ rhs.toNat))
        (outOfRange (rhs.toInt - (s.x rn).toInt - flagNat (!s.flags.c))) o

/-- When its condition holds, TST.imm, TST.rsi and TST.rsr complete in every state: no register but the pc is written; N and Z from x[Rn] AND the operand; C and V unchanged; every other register and memory are as before, and the pc moves on by 4.
(stated: R136) -/
def Obligations.TstSetsFlagsOfAnd : Prop :=
  ∀ (s : State) (c : Cond) (sb : Bool) (rn rd : Reg), condHolds c s.flags = true →
    AllForms s (.tstImm c sb rn rd) (.tstRsi c sb rn rd) (.tstRsr c sb rn rd) fun rhs o =>
      Completes s (none) (s.x rn &&& rhs) (s.flags.c)
        (s.flags.v) o

/-- When its condition holds, TEQ.imm, TEQ.rsi and TEQ.rsr complete in every state: no register but the pc is written; N and Z from x[Rn] XOR the operand; C and V unchanged; every other register and memory are as before, and the pc moves on by 4.
(stated: R137) -/
def Obligations.TeqSetsFlagsOfExclusiveOr : Prop :=
  ∀ (s : State) (c : Cond) (sb : Bool) (rn rd : Reg), condHolds c s.flags = true →
    AllForms s (.teqImm c sb rn rd) (.teqRsi c sb rn rd) (.teqRsr c sb rn rd) fun rhs o =>
      Completes s (none) (s.x rn ^^^ rhs) (s.flags.c)
        (s.flags.v) o

/-- When its condition holds, CMP.imm, CMP.rsi and CMP.rsr complete in every state: no register but the pc is written; N, Z, C, V are those of x[Rn] minus the operand; every other register and memory are as before, and the pc moves on by 4.
(stated: R138) -/
def Obligations.CmpSetsFlagsOfDifference : Prop :=
  ∀ (s : State) (c : Cond) (sb : Bool) (rn rd : Reg), condHolds c s.flags = true →
    AllForms s (.cmpImm c sb rn rd) (.cmpRsi c sb rn rd) (.cmpRsr c sb rn rd) fun rhs o =>
      Completes s (none) (s.x rn - rhs) (decide (rhs.toNat ≤ (s.x rn).toNat))
        (outOfRange ((s.x rn).toInt - rhs.toInt)) o

/-- When its condition holds, CMN.imm, CMN.rsi and CMN.rsr complete in every state: no register but the pc is written; N, Z, C, V are those of x[Rn] plus the operand; every other register and memory are as before, and the pc moves on by 4.
(stated: R139) -/
def Obligations.CmnSetsFlagsOfSum : Prop :=
  ∀ (s : State) (c : Cond) (sb : Bool) (rn rd : Reg), condHolds c s.flags = true →
    AllForms s (.cmnImm c sb rn rd) (.cmnRsi c sb rn rd) (.cmnRsr c sb rn rd) fun rhs o =>
      Completes s (none) (s.x rn + rhs) (decide (2 ^ 32 ≤ (s.x rn).toNat + rhs.toNat))
        (outOfRange ((s.x rn).toInt + rhs.toInt)) o

/-- When its condition holds, ORR.imm, ORR.rsi and ORR.rsr complete in every state: x[Rd] is x[Rn] OR the operand; N and Z from it; C and V unchanged; every other register and memory are as before, and the pc moves on by 4 (result plus 4 when R15 is written).
(stated: R140) -/
def Obligations.OrrWritesBitwiseOr : Prop :=
  ∀ (s : State) (c : Cond) (sb : Bool) (rn rd : Reg), condHolds c s.flags = true →
    AllForms s (.orrImm c sb rn rd) (.orrRsi c sb rn rd) (.orrRsr c sb rn rd) fun rhs o =>
      Completes s (some rd) (s.x rn ||| rhs) (s.flags.c)
        (s.flags.v) o

/-- When its condition holds, MOV.imm, MOV.rsi and MOV.rsr complete in every state: x[Rd] is the operand; N and Z from it, whatever S is; C and V unchanged; the Rn field has no effect; every other register and memory are as before, and the pc moves on by 4 (result plus 4 when R15 is written).
(stated: R141) -/
def Obligations.MovWritesOperand : Prop :=
  ∀ (s : State) (c : Cond) (sb : Bool) (rn rd : Reg), condHolds c s.flags = true →
    AllForms s (.movImm c sb rn rd) (.movRsi c sb rn rd) (.movRsr c sb rn rd) fun rhs o =>
      Completes s (some rd) (rhs) (s.flags.c)
        (s.flags.v) o

/-- When its condition holds, BIC.imm, BIC.rsi and BIC.rsr complete in every state: x[Rd] is x[Rn] AND NOT the operand; N and Z from it; C and V unchanged; every other register and memory are as before, and the pc moves on by 4 (result plus 4 when R15 is written).
(stated: R142) -/
def Obligations.BicClearsBits : Prop :=
  ∀ (s : State) (c : Cond) (sb : Bool) (rn rd : Reg), condHolds c s.flags = true →
    AllForms s (.bicImm c sb rn rd) (.bicRsi c sb rn rd) (.bicRsr c sb rn rd) fun rhs o =>
      Completes s (some rd) (s.x rn &&& ~~~rhs) (s.flags.c)
        (s.flags.v) o

/-- When its condition holds, MVN.imm, MVN.rsi and MVN.rsr complete in every state: x[Rd] is NOT the operand; N and Z from it; C and V unchanged; the Rn field has no effect; every other register and memory are as before, and the pc moves on by 4 (result plus 4 when R15 is written).
(stated: R143) -/
def Obligations.MvnWritesComplement : Prop :=
  ∀ (s : State) (c : Cond) (sb : Bool) (rn rd : Reg), condHolds c s.flags = true →
    AllForms s (.mvnImm c sb rn rd) (.mvnRsi c sb rn rd) (.mvnRsr c sb rn rd) fun rhs o =>
      Completes s (some rd) (~~~rhs) (s.flags.c)
        (s.flags.v) o

/-- When its condition holds, B completes in every state: the pc becomes a + 4 + 4 * offset modulo 2^32, the offset read as signed; every other register, every flag and memory are as before.
(stated: R146) -/
def Obligations.BranchGoesToItsTarget : Prop :=
  ∀ (s : State) (c : Cond) (offset : BitVec 24), condHolds c s.flags = true →
    ∃ t, exec (.b c offset) s = .next t ∧
      t.pc = BitVec.ofInt 32 (s.pc.toNat + 4 + 4 * offset.toInt) ∧
      (∀ q, q ≠ Reg.pc → t.x q = s.x q) ∧ t.flags = s.flags ∧ SameMemory s t

/-- When its condition holds, BL completes in every state: x[14] becomes a + 4 and the pc a + 4 + 4 * offset, both modulo 2^32; every other register, every flag and memory are as before.
(stated: R147) -/
def Obligations.BranchWithLinkSavesReturnAddress : Prop :=
  ∀ (s : State) (c : Cond) (offset : BitVec 24), condHolds c s.flags = true →
    ∃ t, exec (.bl c offset) s = .next t ∧
      t.x Reg.lr = s.pc + 4 ∧
      t.pc = BitVec.ofInt 32 (s.pc.toNat + 4 + 4 * offset.toInt) ∧
      (∀ q, q ≠ Reg.pc → q ≠ Reg.lr → t.x q = s.x q) ∧ t.flags = s.flags ∧ SameMemory s t

/-- When its condition holds, CMP completes in each of its three forms, and in the state after it EQ, NE say equal, not equal; GE, LT, GT, LE compare x[Rn] with the operand as signed; CS, CC, HI, LS as unsigned; MI and PL give the sign of the 32-bit difference and VS and VC the signed overflow.
(derived: 41_data_processing.md rule R138 (corner cases, derived), 40_execution_cycle.md rule R103) -/
def Obligations.CompareOrdersSignedAndUnsigned : Prop :=
  ∀ (s : State) (c : Cond) (sb : Bool) (rn rd : Reg), condHolds c s.flags = true →
    AllForms s (.cmpImm c sb rn rd) (.cmpRsi c sb rn rd) (.cmpRsr c sb rn rd) fun rhs o =>
      ∃ t, o = .next t ∧
        (condHolds .eq t.flags = true ↔ s.x rn = rhs) ∧ (condHolds .ne t.flags = true ↔ s.x rn ≠ rhs) ∧
        (condHolds .ge t.flags = true ↔ rhs.toInt ≤ (s.x rn).toInt) ∧
        (condHolds .lt t.flags = true ↔ (s.x rn).toInt < rhs.toInt) ∧
        (condHolds .gt t.flags = true ↔ rhs.toInt < (s.x rn).toInt) ∧
        (condHolds .le t.flags = true ↔ (s.x rn).toInt ≤ rhs.toInt) ∧
        (condHolds .cs t.flags = true ↔ rhs.toNat ≤ (s.x rn).toNat) ∧
        (condHolds .cc t.flags = true ↔ (s.x rn).toNat < rhs.toNat) ∧
        (condHolds .hi t.flags = true ↔ rhs.toNat < (s.x rn).toNat) ∧
        (condHolds .ls t.flags = true ↔ (s.x rn).toNat ≤ rhs.toNat) ∧
        (condHolds .mi t.flags = true ↔ (s.x rn - rhs).toInt < 0) ∧
        (condHolds .pl t.flags = true ↔ 0 ≤ (s.x rn - rhs).toInt) ∧
        (condHolds .vs t.flags = true ↔ outOfRange ((s.x rn).toInt - rhs.toInt) = true) ∧
        (condHolds .vc t.flags = true ↔ outOfRange ((s.x rn).toInt - rhs.toInt) = false)

/-- For registers other than the pc, with the low destination neither of the high sources nor the high destination: ADD lo then ADC hi leave the 64-bit sum in the two destinations, C its unsigned overflow and V its signed overflow.
(derived: 41_data_processing.md rules R132 and R133, 40_execution_cycle.md rule R106) -/
def Obligations.AddThenAdcAddsSixtyFourBits : Prop :=
  ∀ (s : State) (sb sb' : Bool) (al ah bl bh dl dh : Reg),
    dl ≠ Reg.pc → dh ≠ Reg.pc → dl ≠ ah → dl ≠ bh → dl ≠ dh → ah ≠ Reg.pc → bh ≠ Reg.pc →
    ∃ t u, exec (.addRsi .al sb al dl .logicalLeft 0 bl) s = .next t ∧
      exec (.adcRsi .al sb' ah dh .logicalLeft 0 bh) t = .next u ∧
      (u.x dh ++ u.x dl : BitVec 64) = (s.x ah ++ s.x al) + (s.x bh ++ s.x bl) ∧
      (u.flags.c = true ↔ 2 ^ 64 ≤ (s.x ah ++ s.x al).toNat + (s.x bh ++ s.x bl).toNat) ∧
      (u.flags.v = true ↔ (s.x ah ++ s.x al).toInt + (s.x bh ++ s.x bl).toInt < -(2 ^ 63) ∨
        2 ^ 63 ≤ (s.x ah ++ s.x al).toInt + (s.x bh ++ s.x bl).toInt)

/-- For registers other than the pc, with the low destination neither of the high sources nor the high destination: SUB lo then SBC hi leave the 64-bit difference in the two destinations, C says that the first number is at least the second, unsigned, and V is the signed overflow of the 64-bit difference.
(derived: 41_data_processing.md rules R130 and R134, 40_execution_cycle.md rule R106) -/
def Obligations.SubThenSbcSubtractsSixtyFourBits : Prop :=
  ∀ (s : State) (sb sb' : Bool) (al ah bl bh dl dh : Reg),
    dl ≠ Reg.pc → dh ≠ Reg.pc → dl ≠ ah → dl ≠ bh → dl ≠ dh → ah ≠ Reg.pc → bh ≠ Reg.pc →
    ∃ t u, exec (.subRsi .al sb al dl .logicalLeft 0 bl) s = .next t ∧
      exec (.sbcRsi .al sb' ah dh .logicalLeft 0 bh) t = .next u ∧
      (u.x dh ++ u.x dl : BitVec 64) = (s.x ah ++ s.x al) - (s.x bh ++ s.x bl) ∧
      (u.flags.c = true ↔ (s.x bh ++ s.x bl).toNat ≤ (s.x ah ++ s.x al).toNat) ∧
      (u.flags.v = true ↔ (s.x ah ++ s.x al).toInt - (s.x bh ++ s.x bl).toInt < -(2 ^ 63) ∨
        2 ^ 63 ≤ (s.x ah ++ s.x al).toInt - (s.x bh ++ s.x bl).toInt)

/-- Two data-processing instructions that differ only in S answer the same outcome in every state.
(stated: R144) -/
def Obligations.SBitHasNoEffect : Prop :=
  ∀ (s : State) (c : Cond) (op : Opcode) (sb sb' : Bool) (rn rd : Reg) (o : Operand),
    exec (Instr.ofInstruction ⟨c, .dataProcessing op sb rn rd o⟩) s =
      exec (Instr.ofInstruction ⟨c, .dataProcessing op sb' rn rd o⟩) s

/-- Two MOV or two MVN instructions that differ only in Rn answer the same outcome, and so do two TST, TEQ, CMP or CMN instructions that differ only in Rd; encode keeps the fields apart.
(derived: 30_encoding.md rule R65, 41_data_processing.md rules R121 and R136 to R139) -/
def Obligations.UnusedFieldsHaveNoEffect : Prop :=
  ∀ (s : State) (c : Cond) (sb : Bool) (rn rd r : Reg) (o : Operand),
    (∀ op : Opcode, op = .mov ∨ op = .mvn →
      exec (Instr.ofInstruction ⟨c, .dataProcessing op sb rn rd o⟩) s =
        exec (Instr.ofInstruction ⟨c, .dataProcessing op sb r rd o⟩) s) ∧
    (∀ op : Opcode, op = .tst ∨ op = .teq ∨ op = .cmp ∨ op = .cmn →
      exec (Instr.ofInstruction ⟨c, .dataProcessing op sb rn rd o⟩) s =
        exec (Instr.ofInstruction ⟨c, .dataProcessing op sb rn r o⟩) s) ∧
    (∀ op : Opcode, rn ≠ r →
      encode (Instr.ofInstruction ⟨c, .dataProcessing op sb rn rd o⟩) ≠
        encode (Instr.ofInstruction ⟨c, .dataProcessing op sb r rd o⟩)) ∧
    (∀ op : Opcode, rd ≠ r →
      encode (Instr.ofInstruction ⟨c, .dataProcessing op sb rn rd o⟩) ≠
        encode (Instr.ofInstruction ⟨c, .dataProcessing op sb rn r o⟩))

/-- In every state, every instruction answers a next state; no register but the pc and the instruction's destination (Rd of the twelve opcodes that write it, R14 for BL, none for the others) changes; B and BL change no flag; memory is as before.
(derived: 10_state.md rule R17, 10_state.md rule R24, 20_memory.md rule R32) -/
def Obligations.EveryInstructionWritesOnlyItsDestination : Prop :=
  ∀ (i : Instr) (s : State), ∃ t, exec i s = .next t ∧
    (∀ q, q ≠ Reg.pc → i.dest ≠ some q → t.x q = s.x q) ∧
    (i.isBranch = true → t.flags = s.flags) ∧ SameMemory s t

/-- If two states agree on the flags, the pc and the registers an instruction reads (R17), whatever their other registers and their memories, then it answers next states that agree on the flags, the pc, the register it writes when its condition holds, and every register the two states agreed on.
(derived: 10_state.md rule R17, 20_memory.md rule R32) -/
def Obligations.InstructionsReadOnlyWhatTheyName : Prop :=
  ∀ (i : Instr) (s s' : State), s.flags = s'.flags → s.pc = s'.pc → (∀ r ∈ i.sources, s.x r = s'.x r) →
    ∃ t t', exec i s = .next t ∧ exec i s' = .next t' ∧ t.flags = t'.flags ∧ t.pc = t'.pc ∧
      ∀ q, (s.x q = s'.x q ∨ (condHolds i.cond s.flags = true ∧ i.dest = some q)) → t.x q = t'.x q

/-- At every address a, aligned or not, FetchWord(a) has mem[a] in bits 31 to 24, mem[a+1] in 23 to 16, mem[a+2] in 15 to 8 and mem[a+3] in 7 to 0.
(stated: R34) -/
def Obligations.FetchWordIsBigEndian : Prop :=
  ∀ (m : Memory) (a : Nat),
    (m.fetchWord a).toNat = (m.readByte a).toNat * 2 ^ 24 + (m.readByte (a + 1)).toNat * 2 ^ 16 +
      (m.readByte (a + 2)).toNat * 2 ^ 8 + (m.readByte (a + 3)).toNat

/-- When the four bytes at the pc, most significant first and all inside memory, are a word that decodes to i, step is exec i on that state: nothing is added around exec.
(derived: 40_execution_cycle.md rules R101, R102, R105 and R111, 20_memory.md rule R34) -/
def Obligations.StepRunsTheDecodedInstruction : Prop :=
  ∀ (s : State) (w : Word) (i : Instr), WordAt s.mem s.pc.toNat w → decode w = .ok i → step s = exec i s

/-- A step answers FetchError(pc) exactly when uint(pc) + 4 > MEM_SIZE; otherwise InvalidCondition(pc, w) exactly when the fetched word has w[31:28] = 1111; otherwise ReservedClass(pc, w) exactly when w[27:26] is 01 or 11; in every other case a next state.
(stated: R186) -/
def Obligations.StepErrorsInFixedOrder : Prop :=
  ∀ s : State,
    (s.mem.size < s.pc.toNat + 4 → step s = .fault (.fetchError s.pc)) ∧
    (s.pc.toNat + 4 ≤ s.mem.size → (s.mem.fetchWord s.pc.toNat).toNat / 2 ^ 28 = 15 →
      step s = .fault (.invalidCondition s.pc (s.mem.fetchWord s.pc.toNat))) ∧
    (s.pc.toNat + 4 ≤ s.mem.size → (s.mem.fetchWord s.pc.toNat).toNat / 2 ^ 28 ≠ 15 →
      (s.mem.fetchWord s.pc.toNat).toNat / 2 ^ 26 % 2 = 1 →
      step s = .fault (.reservedClass s.pc (s.mem.fetchWord s.pc.toNat))) ∧
    (s.pc.toNat + 4 ≤ s.mem.size → (s.mem.fetchWord s.pc.toNat).toNat / 2 ^ 28 ≠ 15 →
      (s.mem.fetchWord s.pc.toNat).toNat / 2 ^ 26 % 2 = 0 → s.stepsSafely)

/-- Whenever a step answers a next state, its memory is the memory before, byte for byte and as data.
(stated: R33) -/
def Obligations.EngineNeverWritesMemory : Prop :=
  ∀ s t : State, step s = .next t → t.mem = s.mem ∧ SameMemory s t

/-- Inv s: the pc is a multiple of 4 and no word of memory at a multiple of 4 decodes to a data-processing instruction that writes R15. From every state with Inv, a step that answers a next state gives one with Inv; in particular taken branches land on multiples of 4.
(derived: 10_state.md rule R22, 42_branch.md rule R146, 20_memory.md rule R33) -/
def Obligations.AlignmentKeptByBranchOnlyCode : Prop :=
  ∀ s t : State, s.aligned → step s = .next t → t.aligned

/-- For every list of events (steps of the core, bytes, registers and flags written by the host, programs loaded by serialize), if the memory is canonical and at most 2^32 bytes before, it is so after, and MEM_SIZE has not changed. Which acts the host has (log 11) and that its write outside memory changes nothing (log 19) are the model's choices, not the spec's.
(derived: 20_memory.md rules R31, R33, R41 and R46, 70_reset_and_hazards.md rule R199 (MEM_SIZE fixed for the run; the host's acts are logs 11 and 19)) -/
def Obligations.SessionKeepsMemoryCanonical : Prop :=
  ∀ (es : List Event) (s : State), s.memOk → (session es s).1.memOk ∧ (session es s).1.mem.size = s.mem.size

/-- State.reset has a canonical memory of at most 2^32 bytes and an aligned pc with no R15-writing instruction in memory. This rests on the model's choices of launch state, logs 2, 4 and 5: the spec leaves them OPEN.
(derived: 70_reset_and_hazards.md rule R199 (OPEN parameters; logs 2, 4, 5)) -/
def Obligations.ResetMeetsTheInvariants : Prop :=
  State.reset.memOk ∧ State.reset.aligned

/-- State.reset has all registers 0, the pc 0, flags 0, MEM_SIZE 2^32 and every byte 0: the model's choices for OPEN parameters, logs 1 to 5. For every INIT_REGS, flags byte and INIT_MEM, State.launch starts with exactly those, the upper half of the flags byte ignored.
(derived: 70_reset_and_hazards.md rule R199 (OPEN parameters; logs 1 to 5), 10_state.md rule R25) -/
def Obligations.ResetIsTheZeroLaunch : Prop :=
  (∀ q, State.reset.x q = 0) ∧ State.reset.flags = ⟨false, false, false, false⟩ ∧ State.reset.mem.size = 2 ^ 32 ∧
    (∀ a, State.reset.mem.readByte a = 0) ∧
    ∀ l : Launch, (∀ q : Reg, (State.launch l).x q = l.initRegs[q.val]) ∧ (State.launch l).mem = l.initMem ∧
      (State.launch l).flags.pack.toNat = l.initFlags.toNat % 16

/-- Packing gives 8N + 4Z + 2C + V; unpacking a packed byte gives the flags back; two flags bytes with equal low halves are the same input to a call of step; and every flags byte a call returns has upper half 0.
(stated: R25) -/
def Obligations.FlagsByteAtTheBoundary : Prop :=
  (∀ f : Flags, f.pack.toNat = 8 * flagNat f.n + 4 * flagNat f.z + 2 * flagNat f.c + flagNat f.v ∧ Flags.unpack f.pack = f) ∧
  (∀ (ram : Memory) (registers : Vector Word 16) (b b' : Byte), b.toNat % 16 = b'.toNat % 16 →
    stepCall ram registers b = stepCall ram registers b') ∧
  (∀ (ram : Memory) (registers registers' : Vector Word 16) (b b' : Byte),
    stepCall ram registers b = .next (registers', b') → b'.toNat < 16)

/-- For every state, committing what the ports of R100 show (the register write, the flags, pc_next), or raising the error err names with fetch_addr and fetch_word, is exactly step: the generic ExecDP and ExecBranch behind the ports and the fifty meanings behind exec are the same machine. What the ports show where R100 does not say it (an R15 write in pc_next alone, nothing on the ports not enabled, err as the codes 0 to 3) is the model's choice, log 12.
(derived: 40_execution_cycle.md rules R100, R107 and R109 (with the model's choices of log 12), 41_data_processing.md rule R120) -/
def Obligations.PortsPerformTheStep : Prop :=
  ∀ s : State, stepByPorts s = step s

/-- In every state at most three registers are read through the ports, each with the value the register holds; a write port never names the pc; fetch_addr is the pc; when err is not none, no write port is enabled and pc_next = fetch_addr; and err is none exactly when the step answers a next state. That flags_out = flags_in when err is not none, and that the pc has no write port, are the model's choices, log 12: R100 does not say them.
(derived: 40_execution_cycle.md rule R100 (with the model's choices of log 12), 40_execution_cycle.md rule R108) -/
def Obligations.PortsAreWithinTheirLimits : Prop :=
  ∀ s : State,
    (ports s).rfRd.length ≤ 3 ∧ (∀ p ∈ (ports s).rfRd, p.2 = s.x p.1) ∧
    (∀ r v, (ports s).rfWr = some (r, v) → r ≠ Reg.pc) ∧ (ports s).fetchAddr = s.pc ∧
    ((ports s).err ≠ 0 → (ports s).rfWr = none ∧ (ports s).pcNext = (ports s).fetchAddr ∧ (ports s).flagsOut = (ports s).flagsIn) ∧
    ((ports s).err = 0 ↔ s.stepsSafely)

/-- If a step from s fails with e, then n calls of step return e n times and leave the state s, for every n.
(stated: R184) -/
def Obligations.FailedStepRepeatsItsError : Prop :=
  ∀ (s : State) (e : Fault) (n : Nat), step s = .fault e →
    session (List.replicate n .step) s = (s, List.replicate n e)

/-- In a canonical memory with the word at the pc inside it: if the host writes any byte b at pc + k, for a k below 4, the word the next step fetches has b in byte k, its other three bytes are as before, and the step decodes exactly that word, to an instruction it executes or to the error it reports; and if the host writes the four bytes of any word at the pc, most significant first, the step fetches and decodes exactly that word, whatever was there before. Registers and flags are as before.
(stated: R44) -/
def Obligations.HostWriteIsSeenByTheNextFetch : Prop :=
  ∀ s : State, s.memOk → s.pc.toNat + 4 ≤ s.mem.size →
    (∀ (k : Nat) (b : Byte), k < 4 → ∃ (u : State) (w : Word),
      session [.host (.writeByte (s.pc + BitVec.ofNat 32 k) b)] s = (u, []) ∧ u.regs = s.regs ∧ u.flags = s.flags ∧
        StepDecodes u w ∧ w.extractLsb' (24 - 8 * k) 8 = b ∧
        ∀ j, j < 4 → j ≠ k → w.extractLsb' (24 - 8 * j) 8 = (s.mem.fetchWord s.pc.toNat).extractLsb' (24 - 8 * j) 8) ∧
    (∀ w : Word, ∃ u : State,
      session [.host (.writeByte s.pc (w.extractLsb' 24 8)), .host (.writeByte (s.pc + 1) (w.extractLsb' 16 8)),
        .host (.writeByte (s.pc + 2) (w.extractLsb' 8 8)), .host (.writeByte (s.pc + 3) (w.extractLsb' 0 8))] s = (u, []) ∧
        u.regs = s.regs ∧ u.flags = s.flags ∧ StepDecodes u w)

/-- b with condition AL and offset -1 answers the very state it began with, from every state.
(derived: 60_exceptions.md rule R197, 42_branch.md rule R146 (corner cases)) -/
def Obligations.SelfBranchChangesNothing : Prop :=
  ∀ s : State, exec (.b .al 0xFFFFFF#24) s = .next s

/-- After a BL at address a whose condition holds, in any later state whose R14 still holds the link value, sub pc, lr, #4 resumes at a + 4 and mov pc, lr at a + 8, modulo 2^32.
(derived: 42_branch.md rules R147 and R149, 41_data_processing.md rule R145) -/
def Obligations.CallReturnsThroughLinkRegister : Prop :=
  ∀ (s : State) (c : Cond) (offset : BitVec 24), condHolds c s.flags = true →
    ∃ t, exec (.bl c offset) s = .next t ∧
      ∀ (u : State) (sb : Bool) (rn : Reg), u.x Reg.lr = t.x Reg.lr →
        (∃ v, exec (.subImm .al sb Reg.lr Reg.pc 0 4) u = .next v ∧ v.pc = s.pc + 4) ∧
        (∃ v, exec (.movRsi .al sb rn Reg.pc .logicalLeft 0 Reg.lr) u = .next v ∧ v.pc = s.pc + 8)

/-- A buffer shorter than 4 * len(P) is refused; otherwise, from every canonical memory, the result has the same size, holds the word of instruction i big-endian at bytes 4i to 4i + 3, and 0 in every byte after the program.
(stated: R46) -/
def Obligations.SerializeLaysOutTheProgram : Prop :=
  ∀ (p : List Instr) (m : Memory), m.wf = true →
    (m.size < 4 * p.length → serialize p m = none) ∧
    (4 * p.length ≤ m.size → ∃ m', serialize p m = some m' ∧ m'.wf = true ∧ m'.size = m.size ∧
      (∀ k (h : k < p.length), WordAt m' (4 * k) (encode p[k])) ∧
      ∀ a, 4 * p.length ≤ a → m'.readByte a = 0)

/-- For every program that fits a canonical memory and every state that holds the serialized memory with pc = 4i for an i inside the program, step is exec of instruction i: loading, byte order, fetch, decode and dispatch compose to the program's own meaning.
(derived: 20_memory.md rules R34, R46 and R47, 30_encoding.md rule R63, 40_execution_cycle.md rules R101, R102 and R105) -/
def Obligations.SerializedProgramRuns : Prop :=
  ∀ (p : List Instr) (m m' : Memory), m.wf = true → serialize p m = some m' →
    ∀ (s : State) (k : Nat) (h : k < p.length), s.mem = m' → s.pc.toNat = 4 * k → step s = exec p[k] s

/-- For a label and a branch at multiples of 4 below 2^32 whose distance fits the 24-bit field, the engine's target for the offset the assembler computes is the label's address.
(derived: 30_encoding.md rule R82, 42_branch.md rule R146) -/
def Obligations.AssembledBranchReachesItsLabel : Prop :=
  ∀ label cur : Nat, label % 4 = 0 → cur % 4 = 0 → label < 2 ^ 32 → cur < 2 ^ 32 →
    -(2 ^ 23 : Int) ≤ (label / 4 : Int) - (cur / 4 + 1) → (label / 4 : Int) - (cur / 4 + 1) < 2 ^ 23 →
    branchTarget (BitVec.ofNat 32 cur) (labelOffset label cur) = BitVec.ofNat 32 label

/-- Whenever assemble answers a program, every data-processing instruction of it has S = 1.
(stated: R83) -/
def Obligations.AssemblerSetsSInEveryInstruction : Prop :=
  ∀ (lines : List Line) (p : List Instr), assemble lines = .ok p → ∀ i ∈ p, sBit i = some true ∨ sBit i = none

/-- Whenever assemble answers a program, it has exactly as many instructions as the source has instruction lines, and every immediate operand in it has rotate 0.
(derived: 30_encoding.md rules R74, R86 and R90) -/
def Obligations.AssembledProgramShape : Prop :=
  ∀ (lines : List Line) (p : List Instr), assemble lines = .ok p →
    p.length = (instructionLines lines).length ∧ ∀ i ∈ p, rotateField i = some 0 ∨ rotateField i = none

/-- In a source where a label definition is followed by no other definition of the same name, pass 1 binds the name to 4 times the number of instruction lines before that definition, whatever earlier definitions said.
(stated: R73) -/
def Obligations.LaterLabelDefinitionWins : Prop :=
  ∀ (before after : List Line) (name : Text), Line.labelDef name ∉ after →
    (pass1 (before ++ Line.labelDef name :: after) 0 []).lookup name = some (4 * (instructionLines before).length)

/-- blt, ble, bls, bal are B with LT, LE, LS, AL; bleq is BL with EQ, bl is BL with AL; bic is BIC with AL, in capitals too; oreq and orreq are ORR with EQ; xor is EOR; movs, addeqs and bhs resolve to nothing.
(derived: 30_encoding.md rule R76, 95_test_vectors.md L2.8) -/
def Obligations.MnemonicsResolve : Prop :=
  resolveMnemonic ['b', 'l', 't'] = some (.branch false, .lt) ∧ resolveMnemonic ['b', 'l', 'e'] = some (.branch false, .le) ∧
  resolveMnemonic ['b', 'l', 's'] = some (.branch false, .ls) ∧ resolveMnemonic ['b', 'a', 'l'] = some (.branch false, .al) ∧
  resolveMnemonic ['b', 'l', 'e', 'q'] = some (.branch true, .eq) ∧ resolveMnemonic ['b', 'l'] = some (.branch true, .al) ∧
  resolveMnemonic ['b', 'i', 'c'] = some (.dp .bic, .al) ∧ resolveMnemonic ['B', 'I', 'C'] = some (.dp .bic, .al) ∧
  resolveMnemonic ['o', 'r', 'e', 'q'] = some (.dp .orr, .eq) ∧ resolveMnemonic ['o', 'r', 'r', 'e', 'q'] = some (.dp .orr, .eq) ∧
  resolveMnemonic ['x', 'o', 'r'] = some (.dp .eor, .al) ∧ resolveMnemonic ['m', 'o', 'v', 's'] = none ∧
  resolveMnemonic ['a', 'd', 'd', 'e', 'q', 's'] = none ∧ resolveMnemonic ['b', 'h', 's'] = none
end

