-- ==== Sys2Proof/Laws/Alu.lean ====
section
/-! SUPPORT. One lemma for each operation of the datapath that says what it gives, so that callers need not unfold it: the two
arithmetic helpers, the shift unit by type, the operands, and N and Z of a result. -/

namespace Sys2Proof.Machine

/-! ## The arithmetic helpers (R125) -/

/-- The adder's result is the wrapping sum. -/
theorem addWithCarry_result (a b : Word) (cin : Bool) :
    (addWithCarry a b cin).result = a + b + BitVec.ofNat 32 (if cin then 1 else 0) := by
  apply BitVec.eq_of_toNat_eq
  cases cin <;> simp [addWithCarry, bit, BitVec.toNat_ofInt] <;> omega

/-- The adder's carry is the unsigned overflow. -/
theorem addWithCarry_carry (a b : Word) (cin : Bool) :
    (addWithCarry a b cin).carry = decide (2 ^ 32 ≤ a.toNat + b.toNat + (if cin then 1 else 0)) := by
  cases cin <;> (simp [addWithCarry, bit]; omega)

/-- The adder's overflow is that of the exact signed sum. -/
theorem addWithCarry_overflow (a b : Word) (cin : Bool) :
    (addWithCarry a b cin).overflow = signedOverflow (a.toInt + b.toInt + if cin then 1 else 0) := rfl

/-- The subtractor's result is the wrapping difference, `a - b + cin - 1`. -/
theorem subWithBorrow_result (a b : Word) (cin : Bool) :
    (subWithBorrow a b cin).result = a - b + BitVec.ofNat 32 (if cin then 1 else 0) - 1 := by
  have := a.isLt; have := b.isLt
  apply BitVec.eq_of_toNat_eq
  cases cin <;> simp [subWithBorrow, bit, BitVec.toNat_ofInt, BitVec.toNat_sub] <;> omega

/-- The subtractor's carry is no-borrow (D10). -/
theorem subWithBorrow_carry (a b : Word) (cin : Bool) :
    (subWithBorrow a b cin).carry = decide (b.toNat + (if cin then 0 else 1) ≤ a.toNat) := by
  cases cin
  · simp [subWithBorrow, bit]; omega
  · simp [subWithBorrow, bit]

/-- The subtractor's overflow is that of the exact signed difference. -/
theorem subWithBorrow_overflow (a b : Word) (cin : Bool) :
    (subWithBorrow a b cin).overflow = signedOverflow (a.toInt - b.toInt - if cin then 0 else 1) := by
  cases cin <;> rfl

/-- Signed overflow as a statement about the exact value. -/
theorem signedOverflow_iff (t : Int) : signedOverflow t = true ↔ t < -2 ^ 31 ∨ 2 ^ 31 ≤ t := by
  simp only [signedOverflow, Bool.or_eq_true, decide_eq_true_eq]; omega

/-! ## Flags of a result (R126) -/

@[simp] theorem aluFlags_n (o : AluOut) : o.flags.n = o.result.getLsbD 31 := rfl
@[simp] theorem aluFlags_z (o : AluOut) : o.flags.z = decide (o.result = 0x00000000#32) := rfl
@[simp] theorem aluFlags_c (o : AluOut) : o.flags.c = o.carry := rfl
@[simp] theorem aluFlags_v (o : AluOut) : o.flags.v = o.overflow := rfl
@[simp] theorem logicalOut_result (r : Word) (f : Flags) : (logicalOut r f).result = r := rfl
@[simp] theorem logicalOut_carry (r : Word) (f : Flags) : (logicalOut r f).carry = f.c := rfl
@[simp] theorem logicalOut_overflow (r : Word) (f : Flags) : (logicalOut r f).overflow = f.v := rfl

/-! ## Operands (R122 to R124) -/

theorem shift_logicalLeft (v : Word) (n : Nat) : shift .logicalLeft v n = if n < 32 then v <<< n else 0x00000000#32 := rfl
theorem shift_logicalRight (v : Word) (n : Nat) : shift .logicalRight v n = if n < 32 then v >>> n else 0x00000000#32 := rfl
theorem shift_arithmeticRight (v : Word) (n : Nat) :
    shift .arithmeticRight v n = if n < 32 then v.sshiftRight n else if v.msb then 0xFFFFFFFF#32 else 0x00000000#32 := rfl
theorem shift_rotateRight (v : Word) (n : Nat) : shift .rotateRight v n = v.rotateRight (n % 32) := rfl

/-- LSL by 0, the shift of an operand that is `Rm` alone (R87). -/
@[simp] theorem shift_logicalLeft_zero (v : Word) : shift .logicalLeft v 0 = v := by simp [shift_logicalLeft]

theorem immOperand_eq (rotate : BitVec 4) (value : BitVec 8) :
    immOperand rotate value = (value.setWidth 32).rotateLeft rotate.toNat := rfl

/-- The low byte of a register is its value modulo 256. -/
theorem regShiftAmount_eq (rs : Reg) (s : State) : regShiftAmount rs s = (s.x rs).toNat % 256 := by simp [regShiftAmount]

/-! ## The packed flags byte (R25) -/

@[simp] theorem unpack_pack (f : Flags) : Flags.unpack f.pack = f := by
  obtain ⟨n, z, c, v⟩ := f
  cases n <;> cases z <;> cases c <;> cases v <;> rfl

end Sys2Proof.Machine
end

