-- ==== Sys2Proof/Laws/Branch.lean ====
section
/-! SUPPORT. The branch target as exact integer arithmetic. -/

namespace Sys2Proof.Machine

/-- The word offset, sign-extended and shifted left by 2, is 4 times its signed value (spec/42_branch.md R146). -/
theorem wordOffset_eq (offset : BitVec 24) : offset.signExtend 32 <<< 2 = BitVec.ofInt 32 (4 * offset.toInt) := by
  rw [BitVec.shiftLeft_eq_mul_twoPow, BitVec.signExtend, show BitVec.twoPow 32 2 = BitVec.ofInt 32 4 from rfl,
    ← BitVec.ofInt_mul, Int.mul_comm]

/-- The target is the branch's address plus 4 plus 4 times the signed offset, modulo 2^32. -/
theorem branchTarget_eq (a : Word) (offset : BitVec 24) :
    branchTarget a offset = BitVec.ofInt 32 (a.toNat + 4 + 4 * offset.toInt) := by
  have ha : a + 4#32 = BitVec.ofInt 32 (a.toNat + 4) := by
    rw [BitVec.ofInt_add, BitVec.ofInt_natCast, BitVec.ofNat_toNat, BitVec.setWidth_eq]; rfl
  rw [branchTarget, wordOffset_eq, ha, ← BitVec.ofInt_add]

end Sys2Proof.Machine
end

