-- ==== Sys2Proof/Laws/Decode.lean ====
section
/-! SUPPORT. The value tables are inverse to each other, the two instruction types are the same type, and a word is its four
bytes. -/

namespace Sys2Proof

@[simp] theorem condOfCode_code (c : Cond) : Cond.ofCode c.code = some c := by cases c <;> rfl

theorem condCode_of_ofCode : ∀ {b : BitVec 4} {c : Cond}, Cond.ofCode b = some c → c.code = b := by
  have h : ∀ b : BitVec 4, ∀ c ∈ Cond.ofCode b, c.code = b := by decide
  intro b c hc
  exact h b c hc

/-- Code 15 is the only unassigned one (R51). -/
theorem condOfCode_none_iff : ∀ b : BitVec 4, Cond.ofCode b = none ↔ b = 15#4 := by decide

@[simp] theorem opcodeOfCode_code (op : Opcode) : Opcode.ofCode op.code = op := by cases op <;> rfl

@[simp] theorem opcodeCode_ofCode : ∀ b : BitVec 4, (Opcode.ofCode b).code = b := by decide

@[simp] theorem shiftOfCode_code (t : ShiftType) : ShiftType.ofCode t.code = t := by cases t <;> rfl

@[simp] theorem shiftCode_ofCode : ∀ b : BitVec 2, (ShiftType.ofCode b).code = b := by decide

@[simp] theorem regOfBits_regBits : ∀ r : Reg, regOfBits (regBits r) = r := by decide

@[simp] theorem regBits_regOfBits : ∀ b : BitVec 4, regBits (regOfBits b) = b := by decide

@[simp] theorem toInstruction_ofInstruction (i : Instruction) : (Instr.ofInstruction i).toInstruction = i := by
  obtain ⟨c, body⟩ := i
  cases body with
  | dataProcessing op s rn rd operand => cases operand <;> cases op <;> rfl
  | branch link offset => cases link <;> rfl

/-- A word put together from its own bytes is the word (R34). -/
@[simp] theorem wordOfBytes_byteOfWord (w : Word) :
    wordOfBytes (byteOfWord w 0) (byteOfWord w 1) (byteOfWord w 2) (byteOfWord w 3) = w := by
  apply BitVec.eq_of_getLsbD_eq
  intro i hi
  simp only [wordOfBytes, byteOfWord, BitVec.getLsbD_append, BitVec.getLsbD_extractLsb']
  by_cases h1 : i < 8
  · simp [h1]
  by_cases h2 : i < 16
  · simp only [h1, if_false, show i - 8 < 8 by omega, if_true]
    simp [show 8 + (i - 8) = i by omega]
  by_cases h3 : i < 24
  · simp only [h1, if_false, show ¬ i - 8 < 8 by omega, show i - 8 - 8 < 8 by omega, if_true]
    simp [show 16 + (i - 8 - 8) = i by omega]
  · simp only [h1, if_false, show ¬ i - 8 < 8 by omega, show ¬ i - 8 - 8 < 8 by omega]
    simp [show i - 8 - 8 - 8 < 8 by omega, show 24 + (i - 8 - 8 - 8) = i by omega]

/-! ## Bits as numbers -/

/-- Concatenation is a sum. -/
theorem toNat_append_eq {m n : Nat} (x : BitVec m) (y : BitVec n) : (x ++ y).toNat = x.toNat * 2 ^ n + y.toNat := by
  rw [BitVec.toNat_append, ← Nat.shiftLeft_add_eq_or_of_lt y.isLt, Nat.shiftLeft_eq]

/-- A field is a quotient and a remainder. -/
theorem toNat_field {m : Nat} (x : BitVec m) (a b : Nat) : (x.extractLsb' a b).toNat = x.toNat / 2 ^ a % 2 ^ b := by
  rw [BitVec.extractLsb'_toNat, Nat.shiftRight_eq_div_pow]

/-- A bit is a quotient modulo 2. -/
theorem getLsbD_eq_div {m : Nat} (x : BitVec m) (k : Nat) : x.getLsbD k = decide (x.toNat / 2 ^ k % 2 = 1) := by
  rw [BitVec.getLsbD, Nat.testBit_eq_decide_div_mod_eq]

theorem toNat_ofBool_eq (b : Bool) : (BitVec.ofBool b).toNat = b.toNat := by cases b <;> rfl

/-- The bit value of an encoded branch: its fields at their places (spec/30_encoding.md R55, R59). -/
theorem toNat_encode_branch (c : Cond) (link : Bool) (offset : BitVec 24) :
    (encodeInstruction ⟨c, .branch link offset⟩).toNat
      = c.code.toNat * 2 ^ 28 + 2 * 2 ^ 26 + link.toNat * 2 ^ 25 + offset.toNat * 2 := by
  simp only [encodeInstruction, encodeBody, toNat_append_eq, toNat_ofBool_eq]
  simp
  omega

/-- The bit value of an encoded data-processing instruction (R52, R59). -/
theorem toNat_encode_dataProcessing (c : Cond) (op : Opcode) (s : Bool) (rn rd : Reg) (o : Operand) :
    (encodeInstruction ⟨c, .dataProcessing op s rn rd o⟩).toNat
      = c.code.toNat * 2 ^ 28 + (encodeOperand o).1.toNat * 2 ^ 25 + op.code.toNat * 2 ^ 21 + s.toNat * 2 ^ 20
        + (regBits rn).toNat * 2 ^ 16 + (regBits rd).toNat * 2 ^ 12 + (encodeOperand o).2.toNat := by
  simp only [encodeInstruction, encodeBody, toNat_append_eq, toNat_ofBool_eq]
  simp
  omega

end Sys2Proof
end

