-- ==== Sys2Proof/Laws/State.lean ====
section
/-! SUPPORT. The small lemmas of the state's updates: one per field per update, and register reads after register writes. -/

namespace Sys2Proof.Machine

variable (s : State) (r : Reg) (v : Word) (f : Flags) (m : Memory)

@[simp] theorem setX_flags : (s.setX r v).flags = s.flags := rfl
@[simp] theorem setX_mem : (s.setX r v).mem = s.mem := rfl
@[simp] theorem setPc_flags : (s.setPc v).flags = s.flags := rfl
@[simp] theorem setPc_mem : (s.setPc v).mem = s.mem := rfl
@[simp] theorem setFlags_regs : (s.setFlags f).regs = s.regs := rfl
@[simp] theorem setFlags_flags : (s.setFlags f).flags = f := rfl
@[simp] theorem setFlags_mem : (s.setFlags f).mem = s.mem := rfl
@[simp] theorem setMem_regs : (s.setMem m).regs = s.regs := rfl
@[simp] theorem setMem_flags : (s.setMem m).flags = s.flags := rfl
@[simp] theorem setMem_mem : (s.setMem m).mem = m := rfl
@[simp] theorem advance_flags : s.advance.flags = s.flags := rfl
@[simp] theorem advance_mem : s.advance.mem = s.mem := rfl

@[simp] theorem x_setFlags : (s.setFlags f).x r = s.x r := rfl
@[simp] theorem x_setMem : (s.setMem m).x r = s.x r := rfl
@[simp] theorem pc_setFlags : (s.setFlags f).pc = s.pc := rfl
@[simp] theorem pc_setMem : (s.setMem m).pc = s.pc := rfl

/-- A register read after a register write. -/
theorem x_setX (q : Reg) : (s.setX r v).x q = if r = q then v else s.x q := by
  simp [State.setX, State.x, Vector.getElem_set, Fin.ext_iff]

@[simp] theorem x_setX_same : (s.setX r v).x r = v := by simp [x_setX]

theorem x_setX_ne {q : Reg} (h : r ≠ q) : (s.setX r v).x q = s.x q := by simp [x_setX, h]

@[simp] theorem pc_setPc : (s.setPc v).pc = v := x_setX_same s Reg.pc v

theorem x_setPc_ne {q : Reg} (h : q ≠ Reg.pc) : (s.setPc v).x q = s.x q := x_setX_ne s Reg.pc v (Ne.symm h)

theorem pc_setX_ne (h : r ≠ Reg.pc) : (s.setX r v).pc = s.pc := x_setX_ne s r v h

@[simp] theorem pc_advance : s.advance.pc = s.pc + 4 := pc_setPc s _

theorem x_advance_ne {q : Reg} (h : q ≠ Reg.pc) : s.advance.x q = s.x q := x_setPc_ne s _ h

/-- Writing back the value a register holds changes nothing. -/
theorem setX_x_self : s.setX r (s.x r) = s := by
  cases s; simp [State.setX, State.x]

@[simp] theorem setPc_pc_self : s.setPc s.pc = s := setX_x_self s Reg.pc

/-- Two states are equal when every register, the flags and the memory are. -/
theorem state_ext {s t : State} (hx : ∀ q, s.x q = t.x q) (hf : s.flags = t.flags) (hm : s.mem = t.mem) : s = t := by
  cases s; cases t
  simp only [State.mk.injEq]
  refine ⟨Vector.ext fun i hi => hx ⟨i, hi⟩, hf, hm⟩

end Sys2Proof.Machine
end

