-- ==== Sys2Proof/Laws/Exec.lean ====
section
/-! SUPPORT. What an executed instruction can do, said once: every arm of `exec` is the condition gate around the generic effect of
its body (spec/41_data_processing.md R120, spec/42_branch.md R146), and each shared operation has its field lemmas. -/

namespace Sys2Proof.Machine

/-! ## The shared operations -/

theorem gated_true {s : State} {c : Cond} (h : condHolds c s.flags = true) (effect : State → State) :
    s.gated c effect = .next (effect s) := by simp [State.gated, h]

theorem gated_false {s : State} {c : Cond} (h : condHolds c s.flags = false) (effect : State → State) :
    s.gated c effect = .next s.advance := by simp [State.gated, h]

@[simp] theorem writeResult_flags (s : State) (rd : Reg) (o : AluOut) : (s.writeResult rd o).flags = o.flags := rfl
@[simp] theorem writeResult_mem (s : State) (rd : Reg) (o : AluOut) : (s.writeResult rd o).mem = s.mem := rfl
@[simp] theorem compareResult_flags (s : State) (o : AluOut) : (s.compareResult o).flags = o.flags := rfl
@[simp] theorem compareResult_mem (s : State) (o : AluOut) : (s.compareResult o).mem = s.mem := rfl
@[simp] theorem pc_compareResult (s : State) (o : AluOut) : (s.compareResult o).pc = s.pc + 4 := by simp [State.compareResult]

theorem x_writeResult_ne (s : State) (rd : Reg) (o : AluOut) {q : Reg} (h : q ≠ Reg.pc) :
    (s.writeResult rd o).x q = if rd = q then o.result else s.x q := by
  rw [State.writeResult, x_advance_ne _ h, x_setFlags, x_setX]

theorem pc_writeResult (s : State) (rd : Reg) (o : AluOut) :
    (s.writeResult rd o).pc = (if rd = Reg.pc then o.result else s.pc) + 4 := by
  rw [State.writeResult, pc_advance, pc_setFlags]
  show (s.setX rd o.result).x Reg.pc + 4 = _
  rw [x_setX]; rfl

theorem x_compareResult_ne (s : State) (o : AluOut) {q : Reg} (h : q ≠ Reg.pc) : (s.compareResult o).x q = s.x q := by
  rw [State.compareResult, x_advance_ne _ h, x_setFlags]

/-! ## exec -/

/-- The effect of a body whose condition holds (R105, R120, R146). -/
def bodyEffect (body : Body) (s : State) : State :=
  match body with
  | .dataProcessing op _ rn rd operand =>
    if writesRd op then s.writeResult rd (dpOut op rn operand s) else s.compareResult (dpOut op rn operand s)
  | .branch true offset => (s.setX Reg.lr (linkValue s.pc)).setPc (branchTarget s.pc offset)
  | .branch false offset => s.setPc (branchTarget s.pc offset)

/-- Every arm of `exec` is the gate around the generic effect of its body. -/
theorem exec_eq_gated (i : Instr) (s : State) : exec i s = s.gated i.cond (bodyEffect i.toInstruction.body) := by
  cases i <;> rfl

/-- An instruction whose condition holds has the effect of its body. -/
theorem exec_of_holds (i : Instr) (s : State) (h : condHolds i.cond s.flags = true) :
    exec i s = .next (bodyEffect i.toInstruction.body s) := by rw [exec_eq_gated, gated_true h]

/-- The generic effect never touches memory. -/
@[simp] theorem bodyEffect_mem (body : Body) (s : State) : (bodyEffect body s).mem = s.mem := by
  cases body with
  | dataProcessing op sb rn rd operand => simp only [bodyEffect]; split <;> rfl
  | branch link offset => cases link <;> rfl

/-- What a step can do: run the instruction at the pc, or report the error of the fetch. -/
theorem step_cases (s : State) :
    (∃ i, s.fetchInstr = .ok i ∧ step s = exec i s) ∨ (∃ e, s.fetchInstr = .error e ∧ step s = .fault e) := by
  unfold step
  cases h : s.fetchInstr with
  | ok i => exact .inl ⟨i, rfl, rfl⟩
  | error e => exact .inr ⟨e, rfl, rfl⟩

/-- A fetch inside memory decodes the word that lies there (R101, R102). -/
theorem fetchInstr_inBounds {s : State} (h : s.pc.toNat + 4 ≤ s.mem.size) :
    s.fetchInstr = match decode (s.mem.fetchWord s.pc.toNat) with
      | .ok i => .ok i
      | .error e => .error (faultOfDecode s.pc (s.mem.fetchWord s.pc.toNat) e) := by
  cases hd : decode (s.mem.fetchWord s.pc.toNat) <;> simp [State.fetchInstr, Memory.inBounds, h, hd]

/-- A step inside memory runs the instruction that lies at the pc, or reports why there is none (R102, R105, R181). -/
theorem step_inBounds {s : State} (h : s.pc.toNat + 4 ≤ s.mem.size) :
    step s = match decode (s.mem.fetchWord s.pc.toNat) with
      | .ok i => exec i s
      | .error e => .fault (faultOfDecode s.pc (s.mem.fetchWord s.pc.toNat) e) := by
  cases hd : decode (s.mem.fetchWord s.pc.toNat) <;> simp [step, fetchInstr_inBounds h, hd]

end Sys2Proof.Machine
end

