-- ==== Sys2Proof/Laws/Memory.lean ====
section
/-! SUPPORT. The byte memory: what a read gives after a write, and that every operation keeps the canonical form. -/

namespace Sys2Proof.Machine

@[simp] theorem readByte_empty (n a : Nat) : Memory.readByte ⟨n, []⟩ a = Config.unlistedByte := rfl

/-- A word of a memory with nothing listed is zero. -/
@[simp] theorem fetchWord_empty (n a : Nat) : Memory.fetchWord ⟨n, []⟩ a = 0x00000000#32 := by
  show wordOfBytes Config.unlistedByte Config.unlistedByte Config.unlistedByte Config.unlistedByte = _
  decide

/-! ## The list of cells -/

/-- In a canonical list no address below `lo` is listed. -/
theorem lookupCell_below {size lo : Nat} {cells : List Host.Cell} (h : cellsWf size lo cells = true) {a : Nat} (ha : a < lo) :
    lookupCell cells a = Config.unlistedByte := by
  induction cells generalizing lo with
  | nil => rfl
  | cons cell rest ih =>
    obtain ⟨k, v⟩ := cell
    simp only [cellsWf, Bool.and_eq_true, decide_eq_true_eq] at h
    rw [lookupCell, if_neg (by omega), ih h.2 (by omega)]

/-- A canonical list is canonical from any lower start. -/
theorem cellsWf_lower {size lo lo' : Nat} {cells : List Host.Cell} (h : cellsWf size lo cells = true) (hl : lo' ≤ lo) :
    cellsWf size lo' cells = true := by
  cases cells with
  | nil => rfl
  | cons cell rest =>
    simp only [cellsWf, Bool.and_eq_true, decide_eq_true_eq] at h ⊢
    exact ⟨⟨⟨by omega, h.1.1.2⟩, h.1.2⟩, h.2⟩

/-- A canonical list is canonical in any larger memory. -/
theorem cellsWf_larger {size size' lo : Nat} {cells : List Host.Cell} (h : cellsWf size lo cells = true) (hs : size ≤ size') :
    cellsWf size' lo cells = true := by
  induction cells generalizing lo with
  | nil => rfl
  | cons cell rest ih =>
    simp only [cellsWf, Bool.and_eq_true, decide_eq_true_eq] at h ⊢
    exact ⟨⟨⟨h.1.1.1, by omega⟩, h.1.2⟩, ih h.2⟩

/-- A write keeps the canonical form. -/
theorem writeCell_wf {size lo : Nat} {cells : List Host.Cell} (h : cellsWf size lo cells = true) {a : Nat} (hlo : lo ≤ a)
    (ha : a < size) (b : Byte) : cellsWf size lo (writeCell cells a b) = true := by
  induction cells generalizing lo with
  | nil =>
    unfold writeCell
    split
    · rfl
    · simp_all [cellsWf]
  | cons cell rest ih =>
    obtain ⟨k, v⟩ := cell
    have h' := h
    simp only [cellsWf, Bool.and_eq_true, decide_eq_true_eq] at h'
    obtain ⟨⟨⟨hk, hks⟩, hv⟩, hr⟩ := h'
    unfold writeCell
    split
    · split
      · exact h
      · simp only [cellsWf, Bool.and_eq_true, decide_eq_true_eq, bne_iff_ne]
        refine ⟨⟨⟨hlo, ha⟩, by assumption⟩, ⟨⟨by omega, hks⟩, by simpa using hv⟩, hr⟩
    · split
      · split
        · exact cellsWf_lower hr (by omega)
        · simp only [cellsWf, Bool.and_eq_true, decide_eq_true_eq, bne_iff_ne]
          exact ⟨⟨⟨hlo, ha⟩, by assumption⟩, cellsWf_lower hr (by omega)⟩
      · simp only [cellsWf, Bool.and_eq_true, decide_eq_true_eq]
        exact ⟨⟨⟨hk, hks⟩, hv⟩, ih hr (by omega)⟩

/-- A read after a write, in a canonical list. -/
theorem lookupCell_writeCell {size lo : Nat} {cells : List Host.Cell} (h : cellsWf size lo cells = true) (a : Nat) (b : Byte)
    (q : Nat) : lookupCell (writeCell cells a b) q = if a = q then b else lookupCell cells q := by
  induction cells generalizing lo with
  | nil =>
    unfold writeCell
    split <;> simp_all [lookupCell]
  | cons cell rest ih =>
    obtain ⟨k, v⟩ := cell
    have h' := h
    simp only [cellsWf, Bool.and_eq_true, decide_eq_true_eq] at h'
    obtain ⟨⟨⟨hk, hks⟩, hv⟩, hr⟩ := h'
    unfold writeCell
    split
    · have hb : lookupCell ((k, v) :: rest) a = Config.unlistedByte := by
        rw [lookupCell, if_neg (by omega), lookupCell_below hr (by omega)]
      split
      · split
        · subst_vars; exact hb
        · rfl
      · rfl
    · split
      · subst_vars
        split
        · by_cases hq : k = q
          · subst hq
            simp_all [lookupCell_below hr (Nat.lt_succ_self k)]
          · simp [lookupCell, hq]
        · by_cases hq : k = q <;> simp [lookupCell, hq]
      · by_cases hq : k = q
        · subst hq
          have : a ≠ k := by assumption
          simp [lookupCell, this]
        · simp [lookupCell, hq, ih hr]

/-! ## The memory -/

theorem wf_iff {m : Memory} : m.wf = true ↔ m.size ≤ 2 ^ 32 ∧ cellsWf m.size 0 m.cells = true := by
  simp [Memory.wf]

@[simp] theorem size_writeByte (m : Memory) (a : Nat) (b : Byte) : (m.writeByte a b).size = m.size := by
  unfold Memory.writeByte; split <;> rfl

@[simp] theorem size_writeWord (m : Memory) (a : Nat) (w : Word) : (m.writeWord a w).size = m.size := by
  simp [Memory.writeWord]

@[simp] theorem size_clear (m : Memory) : m.clear.size = m.size := rfl

@[simp] theorem size_writeProgram (p : List Instr) (m : Memory) (a : Nat) : (m.writeProgram a p).size = m.size := by
  induction p generalizing m a with
  | nil => rfl
  | cons i rest ih => simp [Memory.writeProgram, ih]

theorem writeByte_wf {m : Memory} (h : m.wf = true) (a : Nat) (b : Byte) : (m.writeByte a b).wf = true := by
  unfold Memory.writeByte
  split
  · exact wf_iff.2 ⟨(wf_iff.1 h).1, writeCell_wf (wf_iff.1 h).2 (Nat.zero_le a) (by assumption) b⟩
  · exact h

/-- A read after a write inside memory. -/
theorem readByte_writeByte {m : Memory} (h : m.wf = true) {a : Nat} (ha : a < m.size) (b : Byte) (q : Nat) :
    (m.writeByte a b).readByte q = if a = q then b else m.readByte q := by
  simp only [Memory.writeByte, if_pos ha, Memory.readByte]
  exact lookupCell_writeCell (wf_iff.1 h).2 a b q

theorem writeWord_wf {m : Memory} (h : m.wf = true) (a : Nat) (w : Word) : (m.writeWord a w).wf = true :=
  writeByte_wf (writeByte_wf (writeByte_wf (writeByte_wf h _ _) _ _) _ _) _ _

theorem clear_wf {m : Memory} (h : m.wf = true) : m.clear.wf = true := wf_iff.2 ⟨(wf_iff.1 h).1, rfl⟩

theorem writeProgram_wf (p : List Instr) {m : Memory} (h : m.wf = true) (a : Nat) : (m.writeProgram a p).wf = true := by
  induction p generalizing m a with
  | nil => exact h
  | cons i rest ih => exact ih (writeWord_wf h a (encode i)) (a + 4)

theorem serialize_wf {p : List Instr} {m m' : Memory} (h : m.wf = true) (hs : serialize p m = some m') : m'.wf = true := by
  unfold serialize at hs
  split at hs
  · cases hs; exact writeProgram_wf p (clear_wf h) 0
  · cases hs

/-- A read after a word is laid down inside memory: the word's own bytes, and every other byte as before. -/
theorem readByte_writeWord {m : Memory} (h : m.wf = true) {a : Nat} (ha : a + 4 ≤ m.size) (w : Word) (q : Nat) :
    (m.writeWord a w).readByte q = if a ≤ q ∧ q < a + 4 then byteOfWord w (q - a) else m.readByte q := by
  have h1 := writeByte_wf h a (byteOfWord w 0)
  have h2 := writeByte_wf h1 (a + 1) (byteOfWord w 1)
  have h3 := writeByte_wf h2 (a + 2) (byteOfWord w 2)
  simp only [Memory.writeWord]
  rw [readByte_writeByte h3 (by simp only [size_writeByte]; omega), readByte_writeByte h2 (by simp only [size_writeByte]; omega),
    readByte_writeByte h1 (by simp only [size_writeByte]; omega), readByte_writeByte h (by omega)]
  by_cases h0 : a + 3 = q
  · subst h0; simp
  by_cases h1 : a + 2 = q
  · subst h1; simp
  by_cases h2 : a + 1 = q
  · subst h2; simp
  by_cases h3 : a = q
  · subst h3; simp
  rw [if_neg h0, if_neg h1, if_neg h2, if_neg h3, if_neg (by omega)]

/-- Byte `k` of a fetched word is the byte at address `a + k` (R34). -/
theorem byteOfWord_fetchWord (m : Memory) (a : Nat) {k : Nat} (hk : k < 4) : byteOfWord (m.fetchWord a) k = m.readByte (a + k) := by
  have h (b0 b1 b2 b3 : Byte) : byteOfWord (wordOfBytes b0 b1 b2 b3) k = if k = 0 then b0 else if k = 1 then b1 else
      if k = 2 then b2 else b3 := by
    have := b0.isLt; have := b1.isLt; have := b2.isLt; have := b3.isLt
    apply BitVec.eq_of_toNat_eq
    obtain rfl | rfl | rfl | rfl : k = 0 ∨ k = 1 ∨ k = 2 ∨ k = 3 := by omega
    all_goals simp only [wordOfBytes, byteOfWord, toNat_append_eq, toNat_field]; simp; omega
  obtain rfl | rfl | rfl | rfl : k = 0 ∨ k = 1 ∨ k = 2 ∨ k = 3 := by omega
  all_goals simp [Memory.fetchWord, h]

/-- Storing a word where the next step fetches keeps the canonical form. -/
theorem storeAtPc_wf {s : State} (h : s.mem.wf = true) (w : Word) : (s.storeAtPc w).mem.wf = true := by
  unfold State.storeAtPc
  split
  case isTrue hpc =>
    have grown : Memory.wf { s.mem with size := max s.mem.size (s.pc.toNat + 4) } = true :=
      wf_iff.2 ⟨Nat.max_le.2 ⟨(wf_iff.1 h).1, hpc⟩, cellsWf_larger (wf_iff.1 h).2 (Nat.le_max_left _ _)⟩
    exact writeWord_wf grown _ _
  case isFalse => exact h

end Sys2Proof.Machine
end

