-- ==== Sys2Proof/Laws/PerInstr.lean ====
section
/-! SUPPORT. Per-instruction facts about the syntax, one lemma per constructor of Instr. -/

namespace Sys2Proof.Laws.InstructionView

/-- The flat `Instr` and the spec's Instruction value (R58) are one and the same: no field is lost on the way there and back. -/
def Statement (i : Instr) : Prop := Instr.ofInstruction i.toInstruction = i

theorem andImm (c : Cond) (s : Bool) (rn rd : Reg) (rot : BitVec 4) (val : BitVec 8) :
    Statement (.andImm c s rn rd rot val) := rfl
theorem andRsi (c : Cond) (s : Bool) (rn rd : Reg) (ty : ShiftType) (amt : BitVec 5) (rm : Reg) :
    Statement (.andRsi c s rn rd ty amt rm) := rfl
theorem andRsr (c : Cond) (s : Bool) (rn rd : Reg) (ty : ShiftType) (rs rm : Reg) :
    Statement (.andRsr c s rn rd ty rs rm) := rfl
theorem eorImm (c : Cond) (s : Bool) (rn rd : Reg) (rot : BitVec 4) (val : BitVec 8) :
    Statement (.eorImm c s rn rd rot val) := rfl
theorem eorRsi (c : Cond) (s : Bool) (rn rd : Reg) (ty : ShiftType) (amt : BitVec 5) (rm : Reg) :
    Statement (.eorRsi c s rn rd ty amt rm) := rfl
theorem eorRsr (c : Cond) (s : Bool) (rn rd : Reg) (ty : ShiftType) (rs rm : Reg) :
    Statement (.eorRsr c s rn rd ty rs rm) := rfl
theorem subImm (c : Cond) (s : Bool) (rn rd : Reg) (rot : BitVec 4) (val : BitVec 8) :
    Statement (.subImm c s rn rd rot val) := rfl
theorem subRsi (c : Cond) (s : Bool) (rn rd : Reg) (ty : ShiftType) (amt : BitVec 5) (rm : Reg) :
    Statement (.subRsi c s rn rd ty amt rm) := rfl
theorem subRsr (c : Cond) (s : Bool) (rn rd : Reg) (ty : ShiftType) (rs rm : Reg) :
    Statement (.subRsr c s rn rd ty rs rm) := rfl
theorem rsbImm (c : Cond) (s : Bool) (rn rd : Reg) (rot : BitVec 4) (val : BitVec 8) :
    Statement (.rsbImm c s rn rd rot val) := rfl
theorem rsbRsi (c : Cond) (s : Bool) (rn rd : Reg) (ty : ShiftType) (amt : BitVec 5) (rm : Reg) :
    Statement (.rsbRsi c s rn rd ty amt rm) := rfl
theorem rsbRsr (c : Cond) (s : Bool) (rn rd : Reg) (ty : ShiftType) (rs rm : Reg) :
    Statement (.rsbRsr c s rn rd ty rs rm) := rfl
theorem addImm (c : Cond) (s : Bool) (rn rd : Reg) (rot : BitVec 4) (val : BitVec 8) :
    Statement (.addImm c s rn rd rot val) := rfl
theorem addRsi (c : Cond) (s : Bool) (rn rd : Reg) (ty : ShiftType) (amt : BitVec 5) (rm : Reg) :
    Statement (.addRsi c s rn rd ty amt rm) := rfl
theorem addRsr (c : Cond) (s : Bool) (rn rd : Reg) (ty : ShiftType) (rs rm : Reg) :
    Statement (.addRsr c s rn rd ty rs rm) := rfl
theorem adcImm (c : Cond) (s : Bool) (rn rd : Reg) (rot : BitVec 4) (val : BitVec 8) :
    Statement (.adcImm c s rn rd rot val) := rfl
theorem adcRsi (c : Cond) (s : Bool) (rn rd : Reg) (ty : ShiftType) (amt : BitVec 5) (rm : Reg) :
    Statement (.adcRsi c s rn rd ty amt rm) := rfl
theorem adcRsr (c : Cond) (s : Bool) (rn rd : Reg) (ty : ShiftType) (rs rm : Reg) :
    Statement (.adcRsr c s rn rd ty rs rm) := rfl
theorem sbcImm (c : Cond) (s : Bool) (rn rd : Reg) (rot : BitVec 4) (val : BitVec 8) :
    Statement (.sbcImm c s rn rd rot val) := rfl
theorem sbcRsi (c : Cond) (s : Bool) (rn rd : Reg) (ty : ShiftType) (amt : BitVec 5) (rm : Reg) :
    Statement (.sbcRsi c s rn rd ty amt rm) := rfl
theorem sbcRsr (c : Cond) (s : Bool) (rn rd : Reg) (ty : ShiftType) (rs rm : Reg) :
    Statement (.sbcRsr c s rn rd ty rs rm) := rfl
theorem rscImm (c : Cond) (s : Bool) (rn rd : Reg) (rot : BitVec 4) (val : BitVec 8) :
    Statement (.rscImm c s rn rd rot val) := rfl
theorem rscRsi (c : Cond) (s : Bool) (rn rd : Reg) (ty : ShiftType) (amt : BitVec 5) (rm : Reg) :
    Statement (.rscRsi c s rn rd ty amt rm) := rfl
theorem rscRsr (c : Cond) (s : Bool) (rn rd : Reg) (ty : ShiftType) (rs rm : Reg) :
    Statement (.rscRsr c s rn rd ty rs rm) := rfl
theorem tstImm (c : Cond) (s : Bool) (rn rd : Reg) (rot : BitVec 4) (val : BitVec 8) :
    Statement (.tstImm c s rn rd rot val) := rfl
theorem tstRsi (c : Cond) (s : Bool) (rn rd : Reg) (ty : ShiftType) (amt : BitVec 5) (rm : Reg) :
    Statement (.tstRsi c s rn rd ty amt rm) := rfl
theorem tstRsr (c : Cond) (s : Bool) (rn rd : Reg) (ty : ShiftType) (rs rm : Reg) :
    Statement (.tstRsr c s rn rd ty rs rm) := rfl
theorem teqImm (c : Cond) (s : Bool) (rn rd : Reg) (rot : BitVec 4) (val : BitVec 8) :
    Statement (.teqImm c s rn rd rot val) := rfl
theorem teqRsi (c : Cond) (s : Bool) (rn rd : Reg) (ty : ShiftType) (amt : BitVec 5) (rm : Reg) :
    Statement (.teqRsi c s rn rd ty amt rm) := rfl
theorem teqRsr (c : Cond) (s : Bool) (rn rd : Reg) (ty : ShiftType) (rs rm : Reg) :
    Statement (.teqRsr c s rn rd ty rs rm) := rfl
theorem cmpImm (c : Cond) (s : Bool) (rn rd : Reg) (rot : BitVec 4) (val : BitVec 8) :
    Statement (.cmpImm c s rn rd rot val) := rfl
theorem cmpRsi (c : Cond) (s : Bool) (rn rd : Reg) (ty : ShiftType) (amt : BitVec 5) (rm : Reg) :
    Statement (.cmpRsi c s rn rd ty amt rm) := rfl
theorem cmpRsr (c : Cond) (s : Bool) (rn rd : Reg) (ty : ShiftType) (rs rm : Reg) :
    Statement (.cmpRsr c s rn rd ty rs rm) := rfl
theorem cmnImm (c : Cond) (s : Bool) (rn rd : Reg) (rot : BitVec 4) (val : BitVec 8) :
    Statement (.cmnImm c s rn rd rot val) := rfl
theorem cmnRsi (c : Cond) (s : Bool) (rn rd : Reg) (ty : ShiftType) (amt : BitVec 5) (rm : Reg) :
    Statement (.cmnRsi c s rn rd ty amt rm) := rfl
theorem cmnRsr (c : Cond) (s : Bool) (rn rd : Reg) (ty : ShiftType) (rs rm : Reg) :
    Statement (.cmnRsr c s rn rd ty rs rm) := rfl
theorem orrImm (c : Cond) (s : Bool) (rn rd : Reg) (rot : BitVec 4) (val : BitVec 8) :
    Statement (.orrImm c s rn rd rot val) := rfl
theorem orrRsi (c : Cond) (s : Bool) (rn rd : Reg) (ty : ShiftType) (amt : BitVec 5) (rm : Reg) :
    Statement (.orrRsi c s rn rd ty amt rm) := rfl
theorem orrRsr (c : Cond) (s : Bool) (rn rd : Reg) (ty : ShiftType) (rs rm : Reg) :
    Statement (.orrRsr c s rn rd ty rs rm) := rfl
theorem movImm (c : Cond) (s : Bool) (rn rd : Reg) (rot : BitVec 4) (val : BitVec 8) :
    Statement (.movImm c s rn rd rot val) := rfl
theorem movRsi (c : Cond) (s : Bool) (rn rd : Reg) (ty : ShiftType) (amt : BitVec 5) (rm : Reg) :
    Statement (.movRsi c s rn rd ty amt rm) := rfl
theorem movRsr (c : Cond) (s : Bool) (rn rd : Reg) (ty : ShiftType) (rs rm : Reg) :
    Statement (.movRsr c s rn rd ty rs rm) := rfl
theorem bicImm (c : Cond) (s : Bool) (rn rd : Reg) (rot : BitVec 4) (val : BitVec 8) :
    Statement (.bicImm c s rn rd rot val) := rfl
theorem bicRsi (c : Cond) (s : Bool) (rn rd : Reg) (ty : ShiftType) (amt : BitVec 5) (rm : Reg) :
    Statement (.bicRsi c s rn rd ty amt rm) := rfl
theorem bicRsr (c : Cond) (s : Bool) (rn rd : Reg) (ty : ShiftType) (rs rm : Reg) :
    Statement (.bicRsr c s rn rd ty rs rm) := rfl
theorem mvnImm (c : Cond) (s : Bool) (rn rd : Reg) (rot : BitVec 4) (val : BitVec 8) :
    Statement (.mvnImm c s rn rd rot val) := rfl
theorem mvnRsi (c : Cond) (s : Bool) (rn rd : Reg) (ty : ShiftType) (amt : BitVec 5) (rm : Reg) :
    Statement (.mvnRsi c s rn rd ty amt rm) := rfl
theorem mvnRsr (c : Cond) (s : Bool) (rn rd : Reg) (ty : ShiftType) (rs rm : Reg) :
    Statement (.mvnRsr c s rn rd ty rs rm) := rfl
theorem b (c : Cond) (off : BitVec 24) : Statement (.b c off) := rfl
theorem bl (c : Cond) (off : BitVec 24) : Statement (.bl c off) := rfl

end Sys2Proof.Laws.InstructionView
end

