-- ==== Sys2Proof/Tests/Slice0.lean ====
section
/-! SUPPORT. Tests and witnesses. Every expected result comes from spec/95_test_vectors.md (its table is named) or is written out by
hand from the rule named; the witnesses show that the hypotheses of the statements in Certificates/ can be met. -/

namespace Sys2Proof.Tests

open Sys2Proof.Machine

/-! ## Helpers -/

/-- The next state of an outcome, if it is one. -/
def nextState : Result → Option State
  | .next t => some t
  | .fault _ => none
  | .refused _ => none

/-- The fault of an outcome, if it is one. -/
def faultOf : Result → Option Fault
  | .fault e => some e
  | .next _ => none
  | .refused _ => none

/-- The zero state with some registers and the flags nibble set, in a memory of 2^32 zero bytes. -/
def st (regs : List (Reg × Word)) (f : Byte) : State :=
  (regs.foldl (fun s p => s.setX p.1 p.2) State.reset).setFlags (Flags.unpack f)

/-- A register, the pc and the flags nibble of a next state. -/
def seen (r : Reg) (o : Result) : Option (Word × Word × Byte) := (nextState o).map fun t => (t.x r, t.pc, t.flags.pack)

/-- The rows of table L2.5 run at address 0 with lhs in R0, rhs in R1 and 0xAA in R2, the register the row may write. -/
def rows (i : Instr) (ins : List (Word × Word × Byte)) : List (Option (Word × Word × Byte)) :=
  ins.map fun r => seen 2 (exec i (st [(0, r.1), (1, r.2.1), (2, 0xAA)] r.2.2))

/-- One step from a state with a word stored at its pc. -/
def stepWord (w : Nat) (regs : List (Reg × Word)) (f : Byte) : Result := step ((st regs f).withFetchWord 32 w)

/-- A state with a memory of a given size and contents from address 0 on. -/
def withBytes (size : Nat) (bytes : List Byte) (pc : Word) : State :=
  (State.reset.setMem ((bytes.zipIdx.foldl (fun m p => m.writeByte p.2 p.1) ⟨size, []⟩))).setPc pc

/-! ## WellFormed: an ill-formed word or program for each check -/

/-- Condition 15 (R51). -/
theorem test_condLegal_refuses : condLegal 0xF0000000#32 = false := by decide
/-- Classes 01 and 11 (R50). -/
theorem test_classLegal_refuses : classLegal 0x04000000#32 = false ∧ classLegal 0x0C000000#32 = false := by decide
/-- Either fault (R61). -/
theorem test_wordLegal_refuses : wordLegal 0xF8000000#32 = false ∧ wordLegal 0xEE000000#32 = false := by decide
/-- A set ignored bit, in each of the two forms (R62). -/
theorem test_wordCanonical_refuses : wordCanonical 0xE19436B5#32 = false ∧ wordCanonical 0xE9FFFFFF#32 = false := by decide
/-- The same words with the bit clear. -/
theorem test_wordCanonical_accepts : wordCanonical 0xE1943635#32 = true ∧ wordCanonical 0xE9FFFFFE#32 = true := by decide
/-- Three instructions in 11 bytes (R46). -/
theorem test_programFits_refuses : programFits (List.replicate 3 (.b .al 0)) 11 = false := by decide
theorem test_programFits_accepts : programFits (List.replicate 3 (.b .al 0)) 12 = true := by decide
/-- No `Instr` is ill-formed: register 16 is register 0 of another type, not a value of this one (R58, log 9). -/
theorem test_wellFormed_accepts : (Instr.mvnRsr .al true 15 15 .rotateRight 15 15).wellFormed = true := by decide

/-! ## Decode: each constructor from a word written out field by field (R49 to R57) -/

/-- Condition codes 0 to 15, in the order of the list of R51. -/
theorem test_condition_codes : (List.range 16).map (fun k => Cond.ofCode (BitVec.ofNat 4 k)) =
    ([Cond.eq, .ne, .cs, .cc, .mi, .pl, .vs, .vc].map some ++ [Cond.hi, .ls, .ge, .lt, .gt, .le, .al].map some) ++ [none] := by
  decide
/-- Shift type codes 00, 01, 10, 11 (R57). -/
theorem test_shift_codes : (List.range 4).map (fun k => ShiftType.ofCode (BitVec.ofNat 2 k)) =
    [.logicalLeft, .logicalRight, .arithmeticRight, .rotateRight] := by decide

/-- cond, class, I, opcode 0000, S, Rn, Rd, then rotate and value; or amount, type, 0, Rm; or Rs, an ignored 1, type, 1, Rm. -/
theorem test_decode_and :
    decode 0b1100_00_1_0000_1_0101_0110_1001_10100011#32 = .ok (.andImm .gt true 5 6 9 0xA3) ∧
    decode 0b1001_00_0_0000_0_0011_1100_10110_10_0_0111#32 = .ok (.andRsi .ls false 3 12 .arithmeticRight 22 7) ∧
    decode 0b0100_00_0_0000_1_1000_0001_1101_1_01_1_1010#32 = .ok (.andRsr .mi true 8 1 .logicalRight 13 10) := by decide
/-- cond, class, I, opcode 0001, S, Rn, Rd, then rotate and value; or amount, type, 0, Rm; or Rs, an ignored 1, type, 1, Rm. -/
theorem test_decode_eor :
    decode 0b1100_00_1_0001_1_0101_0110_1001_10100011#32 = .ok (.eorImm .gt true 5 6 9 0xA3) ∧
    decode 0b1001_00_0_0001_0_0011_1100_10110_10_0_0111#32 = .ok (.eorRsi .ls false 3 12 .arithmeticRight 22 7) ∧
    decode 0b0100_00_0_0001_1_1000_0001_1101_1_01_1_1010#32 = .ok (.eorRsr .mi true 8 1 .logicalRight 13 10) := by decide
/-- cond, class, I, opcode 0010, S, Rn, Rd, then rotate and value; or amount, type, 0, Rm; or Rs, an ignored 1, type, 1, Rm. -/
theorem test_decode_sub :
    decode 0b1100_00_1_0010_1_0101_0110_1001_10100011#32 = .ok (.subImm .gt true 5 6 9 0xA3) ∧
    decode 0b1001_00_0_0010_0_0011_1100_10110_10_0_0111#32 = .ok (.subRsi .ls false 3 12 .arithmeticRight 22 7) ∧
    decode 0b0100_00_0_0010_1_1000_0001_1101_1_01_1_1010#32 = .ok (.subRsr .mi true 8 1 .logicalRight 13 10) := by decide
/-- cond, class, I, opcode 0011, S, Rn, Rd, then rotate and value; or amount, type, 0, Rm; or Rs, an ignored 1, type, 1, Rm. -/
theorem test_decode_rsb :
    decode 0b1100_00_1_0011_1_0101_0110_1001_10100011#32 = .ok (.rsbImm .gt true 5 6 9 0xA3) ∧
    decode 0b1001_00_0_0011_0_0011_1100_10110_10_0_0111#32 = .ok (.rsbRsi .ls false 3 12 .arithmeticRight 22 7) ∧
    decode 0b0100_00_0_0011_1_1000_0001_1101_1_01_1_1010#32 = .ok (.rsbRsr .mi true 8 1 .logicalRight 13 10) := by decide
/-- cond, class, I, opcode 0100, S, Rn, Rd, then rotate and value; or amount, type, 0, Rm; or Rs, an ignored 1, type, 1, Rm. -/
theorem test_decode_add :
    decode 0b1100_00_1_0100_1_0101_0110_1001_10100011#32 = .ok (.addImm .gt true 5 6 9 0xA3) ∧
    decode 0b1001_00_0_0100_0_0011_1100_10110_10_0_0111#32 = .ok (.addRsi .ls false 3 12 .arithmeticRight 22 7) ∧
    decode 0b0100_00_0_0100_1_1000_0001_1101_1_01_1_1010#32 = .ok (.addRsr .mi true 8 1 .logicalRight 13 10) := by decide
/-- cond, class, I, opcode 0101, S, Rn, Rd, then rotate and value; or amount, type, 0, Rm; or Rs, an ignored 1, type, 1, Rm. -/
theorem test_decode_adc :
    decode 0b1100_00_1_0101_1_0101_0110_1001_10100011#32 = .ok (.adcImm .gt true 5 6 9 0xA3) ∧
    decode 0b1001_00_0_0101_0_0011_1100_10110_10_0_0111#32 = .ok (.adcRsi .ls false 3 12 .arithmeticRight 22 7) ∧
    decode 0b0100_00_0_0101_1_1000_0001_1101_1_01_1_1010#32 = .ok (.adcRsr .mi true 8 1 .logicalRight 13 10) := by decide
/-- cond, class, I, opcode 0110, S, Rn, Rd, then rotate and value; or amount, type, 0, Rm; or Rs, an ignored 1, type, 1, Rm. -/
theorem test_decode_sbc :
    decode 0b1100_00_1_0110_1_0101_0110_1001_10100011#32 = .ok (.sbcImm .gt true 5 6 9 0xA3) ∧
    decode 0b1001_00_0_0110_0_0011_1100_10110_10_0_0111#32 = .ok (.sbcRsi .ls false 3 12 .arithmeticRight 22 7) ∧
    decode 0b0100_00_0_0110_1_1000_0001_1101_1_01_1_1010#32 = .ok (.sbcRsr .mi true 8 1 .logicalRight 13 10) := by decide
/-- cond, class, I, opcode 0111, S, Rn, Rd, then rotate and value; or amount, type, 0, Rm; or Rs, an ignored 1, type, 1, Rm. -/
theorem test_decode_rsc :
    decode 0b1100_00_1_0111_1_0101_0110_1001_10100011#32 = .ok (.rscImm .gt true 5 6 9 0xA3) ∧
    decode 0b1001_00_0_0111_0_0011_1100_10110_10_0_0111#32 = .ok (.rscRsi .ls false 3 12 .arithmeticRight 22 7) ∧
    decode 0b0100_00_0_0111_1_1000_0001_1101_1_01_1_1010#32 = .ok (.rscRsr .mi true 8 1 .logicalRight 13 10) := by decide
/-- cond, class, I, opcode 1000, S, Rn, Rd, then rotate and value; or amount, type, 0, Rm; or Rs, an ignored 1, type, 1, Rm. -/
theorem test_decode_tst :
    decode 0b1100_00_1_1000_1_0101_0110_1001_10100011#32 = .ok (.tstImm .gt true 5 6 9 0xA3) ∧
    decode 0b1001_00_0_1000_0_0011_1100_10110_10_0_0111#32 = .ok (.tstRsi .ls false 3 12 .arithmeticRight 22 7) ∧
    decode 0b0100_00_0_1000_1_1000_0001_1101_1_01_1_1010#32 = .ok (.tstRsr .mi true 8 1 .logicalRight 13 10) := by decide
/-- cond, class, I, opcode 1001, S, Rn, Rd, then rotate and value; or amount, type, 0, Rm; or Rs, an ignored 1, type, 1, Rm. -/
theorem test_decode_teq :
    decode 0b1100_00_1_1001_1_0101_0110_1001_10100011#32 = .ok (.teqImm .gt true 5 6 9 0xA3) ∧
    decode 0b1001_00_0_1001_0_0011_1100_10110_10_0_0111#32 = .ok (.teqRsi .ls false 3 12 .arithmeticRight 22 7) ∧
    decode 0b0100_00_0_1001_1_1000_0001_1101_1_01_1_1010#32 = .ok (.teqRsr .mi true 8 1 .logicalRight 13 10) := by decide
/-- cond, class, I, opcode 1010, S, Rn, Rd, then rotate and value; or amount, type, 0, Rm; or Rs, an ignored 1, type, 1, Rm. -/
theorem test_decode_cmp :
    decode 0b1100_00_1_1010_1_0101_0110_1001_10100011#32 = .ok (.cmpImm .gt true 5 6 9 0xA3) ∧
    decode 0b1001_00_0_1010_0_0011_1100_10110_10_0_0111#32 = .ok (.cmpRsi .ls false 3 12 .arithmeticRight 22 7) ∧
    decode 0b0100_00_0_1010_1_1000_0001_1101_1_01_1_1010#32 = .ok (.cmpRsr .mi true 8 1 .logicalRight 13 10) := by decide
/-- cond, class, I, opcode 1011, S, Rn, Rd, then rotate and value; or amount, type, 0, Rm; or Rs, an ignored 1, type, 1, Rm. -/
theorem test_decode_cmn :
    decode 0b1100_00_1_1011_1_0101_0110_1001_10100011#32 = .ok (.cmnImm .gt true 5 6 9 0xA3) ∧
    decode 0b1001_00_0_1011_0_0011_1100_10110_10_0_0111#32 = .ok (.cmnRsi .ls false 3 12 .arithmeticRight 22 7) ∧
    decode 0b0100_00_0_1011_1_1000_0001_1101_1_01_1_1010#32 = .ok (.cmnRsr .mi true 8 1 .logicalRight 13 10) := by decide
/-- cond, class, I, opcode 1100, S, Rn, Rd, then rotate and value; or amount, type, 0, Rm; or Rs, an ignored 1, type, 1, Rm. -/
theorem test_decode_orr :
    decode 0b1100_00_1_1100_1_0101_0110_1001_10100011#32 = .ok (.orrImm .gt true 5 6 9 0xA3) ∧
    decode 0b1001_00_0_1100_0_0011_1100_10110_10_0_0111#32 = .ok (.orrRsi .ls false 3 12 .arithmeticRight 22 7) ∧
    decode 0b0100_00_0_1100_1_1000_0001_1101_1_01_1_1010#32 = .ok (.orrRsr .mi true 8 1 .logicalRight 13 10) := by decide
/-- cond, class, I, opcode 1101, S, Rn, Rd, then rotate and value; or amount, type, 0, Rm; or Rs, an ignored 1, type, 1, Rm. -/
theorem test_decode_mov :
    decode 0b1100_00_1_1101_1_0101_0110_1001_10100011#32 = .ok (.movImm .gt true 5 6 9 0xA3) ∧
    decode 0b1001_00_0_1101_0_0011_1100_10110_10_0_0111#32 = .ok (.movRsi .ls false 3 12 .arithmeticRight 22 7) ∧
    decode 0b0100_00_0_1101_1_1000_0001_1101_1_01_1_1010#32 = .ok (.movRsr .mi true 8 1 .logicalRight 13 10) := by decide
/-- cond, class, I, opcode 1110, S, Rn, Rd, then rotate and value; or amount, type, 0, Rm; or Rs, an ignored 1, type, 1, Rm. -/
theorem test_decode_bic :
    decode 0b1100_00_1_1110_1_0101_0110_1001_10100011#32 = .ok (.bicImm .gt true 5 6 9 0xA3) ∧
    decode 0b1001_00_0_1110_0_0011_1100_10110_10_0_0111#32 = .ok (.bicRsi .ls false 3 12 .arithmeticRight 22 7) ∧
    decode 0b0100_00_0_1110_1_1000_0001_1101_1_01_1_1010#32 = .ok (.bicRsr .mi true 8 1 .logicalRight 13 10) := by decide
/-- cond, class, I, opcode 1111, S, Rn, Rd, then rotate and value; or amount, type, 0, Rm; or Rs, an ignored 1, type, 1, Rm. -/
theorem test_decode_mvn :
    decode 0b1100_00_1_1111_1_0101_0110_1001_10100011#32 = .ok (.mvnImm .gt true 5 6 9 0xA3) ∧
    decode 0b1001_00_0_1111_0_0011_1100_10110_10_0_0111#32 = .ok (.mvnRsi .ls false 3 12 .arithmeticRight 22 7) ∧
    decode 0b0100_00_0_1111_1_1000_0001_1101_1_01_1_1010#32 = .ok (.mvnRsr .mi true 8 1 .logicalRight 13 10) := by decide
/-- cond, class 10, L = 0, offset, and the ignored bit at 1 (R55). -/
theorem test_decode_b : decode 0b1011_10_0_100000000000000000000101_1#32 = .ok (.b .lt 0x800005) := by decide
/-- The same with L = 1. -/
theorem test_decode_bl : decode 0b0000_10_1_011111111111111111111110_0#32 = .ok (.bl .eq 0x7FFFFE) := by decide
/-- Words that fail both checks report the condition (L2.1). -/
theorem test_decode_errors : decode 0xFC000000#32 = .error .invalidCondition ∧ decode 0xF0000000#32 = .error .invalidCondition ∧
    decode 0x04000000#32 = .error .reservedClass ∧ decode 0xEE000000#32 = .error .reservedClass := by decide
/-- Rows of L2.1 the other way round: the ignored bits come back as 0. -/
theorem test_encode : encode (.orrRsr .al true 4 3 .logicalRight 6 5) = 0xE1943635#32 ∧ encode (.b .al 0xFFFFFF) = 0xE9FFFFFE#32 ∧
    encode (.subImm .al true 14 15 0 4) = 0xE25EF004#32 ∧ encode (.movImm .mi true 0 4 0 1) = 0x43B04001#32 := by decide
/-- Bytes in memory order, most significant first (R34), and a short string. -/
theorem test_decodeBytes : decodeBytes [0xE3, 0xB0, 0x00, 0x01, 0x99] = .ok (.movImm .al true 0 0 0 1, [0x99]) ∧
    decodeBytes [0xE3, 0xB0, 0x00] = .error .truncated ∧ decodeBytes [0x04, 0, 0, 0] = .error (.word .reservedClass) := by decide
/-- The host's two entries on one word (L2.1). -/
theorem test_decodeTableWord : decodeTableWord 32 0xE3B00001 = some (.movImm .al true 0 0 0 1) ∧ decodeTableWord 32 0xF0000000 = none := by
  decide
theorem test_withFetchWord : seen 0 (step (State.reset.withFetchWord 32 0xE3B00001)) = some (1, 4, 0) := by decide

/-! ## Conditions (L2.2) and operands (L2.3, L2.4) -/

/-- The conditions but AL that hold for a flags nibble. -/
def holding (f : Byte) : List Cond :=
  ([Cond.eq, .ne, .cs, .cc, .mi, .pl, .vs] ++ [Cond.vc, .hi, .ls, .ge, .lt, .gt, .le]).filter fun c => condHolds c (Flags.unpack f)

theorem test_conditions_low : [0x0, 0x1, 0x2, 0x3, 0x4, 0x5, 0x6, 0x7].map holding =
    [[Cond.ne, .cc, .pl, .vc, .ls, .ge, .gt], [Cond.ne, .cc, .pl, .vs, .ls, .lt, .le], [Cond.ne, .cs, .pl, .vc, .hi, .ge, .gt], [Cond.ne, .cs, .pl, .vs, .hi, .lt, .le]] ++
    [[Cond.eq, .cc, .pl, .vc, .ls, .ge, .le], [Cond.eq, .cc, .pl, .vs, .ls, .lt, .le], [Cond.eq, .cs, .pl, .vc, .ls, .ge, .le], [Cond.eq, .cs, .pl, .vs, .ls, .lt, .le]] := by decide
theorem test_conditions_high : [0x8, 0x9, 0xA, 0xB, 0xC, 0xD, 0xE, 0xF].map holding =
    [[Cond.ne, .cc, .mi, .vc, .ls, .lt, .le], [Cond.ne, .cc, .mi, .vs, .ls, .ge, .gt], [Cond.ne, .cs, .mi, .vc, .hi, .lt, .le], [Cond.ne, .cs, .mi, .vs, .hi, .ge, .gt]] ++
    [[Cond.eq, .cc, .mi, .vc, .ls, .lt, .le], [Cond.eq, .cc, .mi, .vs, .ls, .ge, .le], [Cond.eq, .cs, .mi, .vc, .ls, .lt, .le], [Cond.eq, .cs, .mi, .vs, .ls, .ge, .le]] := by decide

/-- L2.3: an immediate operand (R123). -/
theorem test_immediate_operand : [immOperand 0 0xFF, immOperand 4 0xFF, immOperand 15 0xFF, immOperand 15 0x81, immOperand 15 0x01,
    immOperand 7 0x00] = [0x000000FF, 0x00000FF0, 0x007F8000, 0x00408000, 0x00008000, 0x00000000] := by decide
/-- The other convention of IMM_ROTATION, by hand: 0xFF rotated right by 2 * 4. -/
theorem test_immediate_operand_alternative : immOperandBy .rotrBy2xField 4 0xFF = 0xFF000000#32 := by decide

/-- L2.4, LSL: an immediate amount, or the low byte of the register named. -/
theorem test_shift_lsl :
    [shiftImmOperand .logicalLeft 0 1 (st [(1, 0x80000001)] 0),
     shiftImmOperand .logicalLeft 1 1 (st [(1, 0x80000001)] 0),
     shiftImmOperand .logicalLeft 31 1 (st [(1, 0x80000001)] 0),
     shiftRegOperand .logicalLeft 2 1 (st [(1, 0x80000001), (2, 0x20)] 0),
     shiftRegOperand .logicalLeft 2 1 (st [(1, 0x80000001), (2, 0x21)] 0),
     shiftRegOperand .logicalLeft 2 1 (st [(1, 0x80000001), (2, 0x100)] 0)] =
      [0x80000001, 0x00000002, 0x80000000, 0x00000000, 0x00000000, 0x80000001] := by decide
/-- L2.4, LSR: an immediate amount, or the low byte of the register named. -/
theorem test_shift_lsr :
    [shiftImmOperand .logicalRight 0 1 (st [(1, 0x80000001)] 0),
     shiftImmOperand .logicalRight 1 1 (st [(1, 0x80000001)] 0),
     shiftImmOperand .logicalRight 31 1 (st [(1, 0x80000001)] 0),
     shiftRegOperand .logicalRight 2 1 (st [(1, 0x80000001), (2, 0x20)] 0),
     shiftRegOperand .logicalRight 2 1 (st [(1, 0x80000001), (2, 0xFF)] 0)] =
      [0x80000001, 0x40000000, 0x00000001, 0x00000000, 0x00000000] := by decide
/-- L2.4, ASR: an immediate amount, or the low byte of the register named. -/
theorem test_shift_asr :
    [shiftImmOperand .arithmeticRight 1 1 (st [(1, 0x80000001)] 0),
     shiftImmOperand .arithmeticRight 31 1 (st [(1, 0x80000001)] 0),
     shiftRegOperand .arithmeticRight 2 1 (st [(1, 0x80000001), (2, 0x20)] 0),
     shiftRegOperand .arithmeticRight 2 1 (st [(1, 0x80000001), (2, 0xFF)] 0),
     shiftRegOperand .arithmeticRight 2 1 (st [(1, 0x7FFFFFFF), (2, 0x28)] 0),
     shiftImmOperand .arithmeticRight 4 1 (st [(1, 0x7FFFFFFF)] 0)] =
      [0xC0000000, 0xFFFFFFFF, 0xFFFFFFFF, 0xFFFFFFFF, 0x00000000, 0x07FFFFFF] := by decide
/-- L2.4, ROR: an immediate amount, or the low byte of the register named. -/
theorem test_shift_ror :
    [shiftImmOperand .rotateRight 1 1 (st [(1, 0x80000001)] 0),
     shiftImmOperand .rotateRight 4 1 (st [(1, 0x12345678)] 0),
     shiftImmOperand .rotateRight 0 1 (st [(1, 0x12345678)] 0),
     shiftRegOperand .rotateRight 2 1 (st [(1, 0x12345678), (2, 0x20)] 0),
     shiftRegOperand .rotateRight 2 1 (st [(1, 0x12345678), (2, 0x24)] 0),
     shiftRegOperand .rotateRight 2 1 (st [(1, 0x12345678), (2, 0x104)] 0)] =
      [0xC0000000, 0x81234567, 0x12345678, 0x12345678, 0x81234567, 0x81234567] := by decide

/-! ## The sixteen opcodes (L2.5) -/

theorem test_and : rows (.andRsi .al false 0 2 .logicalLeft 0 1) [(0xF0F0F0F0, 0x0FF00FF0, 0x3)] =
    [some (0x00F000F0, 4, 0x3)] := by decide
theorem test_eor : rows (.eorRsi .al false 0 2 .logicalLeft 0 1) [(0xFFFFFFFF, 0x0000FFFF, 0x3)] =
    [some (0xFFFF0000, 4, 0xB)] := by decide
theorem test_sub : rows (.subRsi .al false 0 2 .logicalLeft 0 1) [(0x00000000, 0x00000001, 0x0), (0x00000005, 0x00000005, 0x0), (0x80000000, 0x00000001, 0x0), (0x7FFFFFFF, 0xFFFFFFFF, 0x0)] =
    [some (0xFFFFFFFF, 4, 0x8), some (0x00000000, 4, 0x6), some (0x7FFFFFFF, 4, 0x3), some (0x80000000, 4, 0x9)] := by decide
theorem test_rsb : rows (.rsbRsi .al false 0 2 .logicalLeft 0 1) [(0x00000001, 0x00000000, 0x0), (0x80000000, 0x00000000, 0x0), (0x00000003, 0x0000000A, 0x0)] =
    [some (0xFFFFFFFF, 4, 0x8), some (0x80000000, 4, 0x9), some (0x00000007, 4, 0x2)] := by decide
theorem test_add : rows (.addRsi .al false 0 2 .logicalLeft 0 1) [(0x7FFFFFFF, 0x00000001, 0x0), (0xFFFFFFFF, 0x00000001, 0x0), (0x80000000, 0x80000000, 0x0), (0x00000001, 0x00000001, 0xF)] =
    [some (0x80000000, 4, 0x9), some (0x00000000, 4, 0x6), some (0x00000000, 4, 0x7), some (0x00000002, 4, 0x0)] := by decide
theorem test_adc : rows (.adcRsi .al false 0 2 .logicalLeft 0 1) [(0xFFFFFFFF, 0x00000000, 0x2), (0x7FFFFFFF, 0x00000000, 0x2), (0x80000000, 0xFFFFFFFF, 0x2), (0xFFFFFFFF, 0xFFFFFFFF, 0x2), (0xFFFFFFFF, 0x00000001, 0x0)] =
    [some (0x00000000, 4, 0x6), some (0x80000000, 4, 0x9), some (0x80000000, 4, 0xA), some (0xFFFFFFFF, 4, 0xA), some (0x00000000, 4, 0x6)] := by decide
theorem test_sbc : rows (.sbcRsi .al false 0 2 .logicalLeft 0 1) [(0x00000005, 0x00000003, 0x2), (0x00000005, 0x00000003, 0x0), (0x00000003, 0x00000003, 0x0), (0x80000000, 0x00000000, 0x0), (0x00000000, 0x00000000, 0x2)] =
    [some (0x00000002, 4, 0x2), some (0x00000001, 4, 0x2), some (0xFFFFFFFF, 4, 0x8), some (0x7FFFFFFF, 4, 0x3), some (0x00000000, 4, 0x6)] := by decide
theorem test_rsc : rows (.rscRsi .al false 0 2 .logicalLeft 0 1) [(0x00000003, 0x00000005, 0x2), (0x00000003, 0x00000005, 0x0), (0x00000000, 0x00000000, 0x0)] =
    [some (0x00000002, 4, 0x2), some (0x00000001, 4, 0x2), some (0xFFFFFFFF, 4, 0x8)] := by decide
theorem test_tst : rows (.tstRsi .al true 0 2 .logicalLeft 0 1) [(0x00000001, 0x00000002, 0x3), (0x80000000, 0x80000001, 0x0)] =
    [some (0xAA, 4, 0x7), some (0xAA, 4, 0x8)] := by decide
theorem test_teq : rows (.teqRsi .al true 0 2 .logicalLeft 0 1) [(0x80000000, 0x00000000, 0x3), (0x00001234, 0x00001234, 0x0)] =
    [some (0xAA, 4, 0xB), some (0xAA, 4, 0x4)] := by decide
theorem test_cmp : rows (.cmpRsi .al true 0 2 .logicalLeft 0 1) [(0x00000005, 0x00000005, 0x0), (0x00000003, 0x00000005, 0x0), (0x80000000, 0x00000001, 0x0), (0xFFFFFFFF, 0x00000001, 0x0)] =
    [some (0xAA, 4, 0x6), some (0xAA, 4, 0x8), some (0xAA, 4, 0x3), some (0xAA, 4, 0xA)] := by decide
theorem test_cmn : rows (.cmnRsi .al true 0 2 .logicalLeft 0 1) [(0xFFFFFFFF, 0x00000001, 0x0), (0x7FFFFFFF, 0x00000001, 0x0)] =
    [some (0xAA, 4, 0x6), some (0xAA, 4, 0x9)] := by decide
theorem test_orr : rows (.orrRsi .al false 0 2 .logicalLeft 0 1) [(0x00000000, 0x00000000, 0x3), (0x0000000F, 0x000000F0, 0x0)] =
    [some (0x00000000, 4, 0x7), some (0x000000FF, 4, 0x0)] := by decide
theorem test_mov : rows (.movRsi .al false 0 2 .logicalLeft 0 1) [(0x12345678, 0x80000000, 0x3), (0x12345678, 0x00000000, 0xB)] =
    [some (0x80000000, 4, 0xB), some (0x00000000, 4, 0x7)] := by decide
theorem test_bic : rows (.bicRsi .al false 0 2 .logicalLeft 0 1) [(0xFFFFFFFF, 0x000000FF, 0x3)] =
    [some (0xFFFFFF00, 4, 0xB)] := by decide
theorem test_mvn : rows (.mvnRsi .al false 0 2 .logicalLeft 0 1) [(0x12345678, 0x00000000, 0x3), (0x12345678, 0xFFFFFFFF, 0x3)] =
    [some (0xFFFFFFFF, 4, 0xB), some (0x00000000, 4, 0x7)] := by decide

/-! ## Branches (L2.6) and whole steps (L2.7) -/

/-- R14, the pc and the flags after a branch word at an address. -/
theorem test_b : [seen 14 (stepWord 0xE9FFFFFE [(15, 0)] 0xF), seen 14 (stepWord 0xE9FFFFFA [(15, 8)] 0), seen 14 (stepWord 0xE8000000 [] 0),
    seen 14 (stepWord 0xE9000000 [] 0), seen 14 (stepWord 0xE8000000 [(15, 0xFFFFFFFC)] 0)] =
    [some (0, 0, 0xF), some (0, 0, 0), some (0, 4, 0), some (0, 0xFE000004, 0), some (0, 0, 0)] := by decide
theorem test_bl : [seen 14 (stepWord 0xEAFFFFFE [(15, 0x100)] 0), seen 14 (stepWord 0xEA000000 [(15, 0xFFFFFFFC), (14, 7)] 0),
    seen 14 (stepWord 0x0A00000A [(14, 7)] 0), seen 14 (stepWord 0x0A00000A [(14, 7)] 4)] =
    [some (0x104, 0x02000100, 0), some (0, 0, 0), some (7, 4, 0), some (4, 0x18, 4)] := by decide
/-- S1, S2, S3: R15 as a source reads the instruction's own address, and as a destination takes the result plus 4. -/
theorem test_step_r15 : [seen 0 (stepWord 0xE1B0000F [(15, 0x20)] 3), seen 0 (stepWord 0xE1B0F00F [(15, 0x20)] 0),
    seen 0 (stepWord 0xE29FF008 [(15, 0x10)] 0)] = [some (0x20, 0x24, 3), some (0, 0x24, 0), some (0, 0x1C, 0)] := by decide
/-- S4, S5: every source reads the value the step began with. -/
theorem test_step_overlap : [seen 0 (stepWord 0xE0B00000 [(0, 0x80000000)] 2), seen 1 (stepWord 0xE0511111 [(1, 5)] 0)] =
    [some (1, 4, 3), some (0xFFFFFF65, 4, 8)] := by decide
/-- S6: a flags byte of 0xF3 comes back as 0x07. -/
theorem test_call_flags_byte :
    (match stepCall (State.reset.withFetchWord 32 0xE3B00000).mem State.reset.regs 0xF3 with
      | .next r => some r.2
      | .fault _ => none
      | .refused _ => none) = some 0x07 := by decide
/-- S7, S8, S9: the bounds check, at its edge and without wrap. -/
theorem test_fetch_bounds : (nextState (step (withBytes 8 [] 4))).isSome = true ∧
    faultOf (step (withBytes 8 [] 5)) = some (.fetchError 5) ∧
    faultOf (step (withBytes 16 [] 0xFFFFFFFE)) = some (.fetchError 0xFFFFFFFE) := by decide
/-- S10: a misaligned fetch. -/
theorem test_misaligned_fetch : seen 0 (step (withBytes 5 [0x00, 0xE3, 0xB0, 0x00, 0x01] 1)) = some (1, 5, 0) := by decide
/-- S11: decoding comes before the condition; and word 0xF0000000 by R181. -/
theorem test_decode_faults : faultOf (stepWord 0x04000000 [] 0) = some (.reservedClass 0 0x04000000) ∧
    faultOf (stepWord 0xFC000000 [] 0) = some (.invalidCondition 0 0xFC000000) := by decide
/-- S12: TST leaves the register its Rd field names. S13: flags are written with S = 0. -/
theorem test_step_flags : [seen 0 (stepWord 0xE1110002 [(0, 9), (1, 1), (2, 2)] 0), seen 0 (stepWord 0xE1A00001 [(0, 9)] 0)] =
    [some (9, 4, 4), some (0, 4, 4)] := by decide
/-- L1 row 4: a false condition only advances the pc. -/
theorem test_step_false_condition : seen 0 (stepWord 0x03B00001 [(0, 0x55)] 0) = some (0x55, 4, 0) := by decide

/-! ## The assembler (L2.8, L1 row 7) -/

def sp : Span := ⟨0, 0⟩
def reg (n : Nat) : Token := ⟨.register (.index n), sp⟩
def lit (ds : List (Fin 10)) : Token := ⟨.decimal false ds, sp⟩
def line (m : Text) (ts : List Token) : Line := .instruction m sp ts

/-- The words of a program, or the kind of its error. -/
def assembled (ls : List Line) : Except AssembleErrorKind (List Word) :=
  match assemble ls with
  | .ok p => .ok (p.map encode)
  | .error e => .error e.kind

/-- `start: mov r0, #1 / add r1, r0, r0 / b start`. -/
theorem test_assemble_program : assembled [.labelDef ['s'], line ['m', 'o', 'v'] [reg 0, lit [1]], .blank,
    line ['a', 'd', 'd'] [reg 1, reg 0, reg 0], line ['b'] [⟨.label ['s'], sp⟩]] =
    .ok [0xE3B00001, 0xE0901000, 0xE9FFFFFA] := by decide
/-- The later of two labels wins: at 12, `b L` with L at 8. -/
theorem test_assemble_later_label : (assembled ([.labelDef ['L'], line ['b'] [lit [0]], line ['b'] [lit [0]], .labelDef ['L']] ++
    [line ['b'] [lit [0]], line ['b'] [⟨.label ['L'], sp⟩]])).map (fun ws => ws[3]?) = .ok (some 0xE9FFFFFC) := by decide
theorem test_assemble_shapes : assembled ([line ['B', 'I', 'C'] [reg 0, reg 0, lit [1]], line ['o', 'r', 'e', 'q'] [reg 0, reg 1, reg 2]] ++
    [line ['x', 'o', 'r'] [reg 0, reg 1, reg 2], line ['s', 'b', 'c'] [reg 0, reg 1, reg 2]] ++
    [line ['c', 'm', 'p'] [reg 0, lit [0]], line ['o', 'r', 'r'] [reg 3, reg 4, reg 5, ⟨.label ['L', 'S', 'R'], sp⟩, reg 6]] ++
    [line ['m', 'o', 'v'] [reg 2, reg 1, ⟨.label ['l', 's', 'l'], sp⟩, lit [2]], line ['s', 'u', 'b'] [⟨.register .pc, sp⟩, ⟨.register .lr, sp⟩, lit [4]]]) =
    .ok ([0xE3D00001, 0x01910002, 0xE0310002, 0xE0D10002] ++ [0xE3500000, 0xE1943635, 0xE1B02101, 0xE25EF004]) := by decide
/-- `mov r0, #-1`, `mov r0, #0x1FF`, `b -3`: truncation (R85). -/
theorem test_assemble_literals : assembled [line ['m', 'o', 'v'] [reg 0, ⟨.decimal true [1], sp⟩], line ['m', 'o', 'v'] [reg 0, ⟨.hex false [1, 15, 15], sp⟩],
    line ['b'] [⟨.decimal true [3], sp⟩]] = .ok [0xE3B000FF, 0xE3B000FF, 0xE9FFFFFA] := by decide
theorem test_assemble_errors :
    [assembled [line ['m', 'o', 'v', 's'] [reg 0, lit [1]]], assembled [line ['b', 'h', 's'] [⟨.label ['L'], sp⟩]],
     assembled [line ['m', 'o', 'v'] [reg 0, lit ([4, 2, 9, 4, 9] ++ [6, 7, 2, 9, 6])]], assembled [line ['m', 'o', 'v'] [reg 16, lit [1]]],
     assembled [line ['b'] [⟨.label ['n'], sp⟩]], assembled [line ['m', 'o', 'v'] [reg 0, lit [1], reg 2]],
     assembled [line ['a', 'd', 'd'] [reg 0, reg 1]]] =
    [.error .invalidOpcode, .error .invalidOpcode, .error .invalidLiteral, .error .invalidRegister, .error .unknownLabel,
     .error .trailingTokens, .error (.missingOperand .operand)] := by decide
/-- Lint mode reports each line on its own (R89). -/
theorem test_lint : (lint [line ['m', 'o', 'v'] [reg 16, lit [1]], .blank, line ['b'] [lit [0]]]).map (fun o => o.map AssembleError.kind) =
    [some .invalidRegister, none, none] := by decide

/-! ## Memory and ports -/

/-- Writing zero removes the entry; a byte outside memory is not written. -/
theorem test_memory_canonical : ((⟨8, []⟩ : Memory).writeByte 3 5).writeByte 3 0 = ⟨8, []⟩ ∧
    (⟨8, []⟩ : Memory).writeByte 8 5 = ⟨8, []⟩ ∧ ((⟨8, []⟩ : Memory).writeByte 7 1).writeByte 2 9 = ⟨8, [(2, 9), (7, 1)]⟩ := by decide
/-- The ports of S5, and of a fetch out of bounds (R100). -/
theorem test_ports : (ports ((st [(1, 5)] 0).withFetchWord 32 0xE0511111)).rfWr = some (1, 0xFFFFFF65) ∧
    (ports (withBytes 8 [] 5)).err = 1 ∧ (ports (withBytes 8 [] 5)).pcNext = 5 := by decide

/-! ## Witnesses: states and operands that meet the hypotheses of each statement -/

/-- A state whose memory of 4 bytes holds `mov r0, #1` at the pc. -/
def movState : State := withBytes 4 [0xE3, 0xB0, 0x00, 0x01] 0
/-- A state whose fetch is out of bounds by one byte. -/
def shortState : State := withBytes 8 [] 5

theorem witness_AndWritesBitwiseAnd : condHolds .al (st [(0, 5), (1, 7)] 0x0).flags = true := by decide
theorem witness_EorWritesExclusiveOr : condHolds .eq (st [(0, 5), (1, 7)] 0x4).flags = true := by decide
theorem witness_SubWritesDifference : condHolds .ne (st [(0, 5), (1, 7)] 0x0).flags = true := by decide
theorem witness_RsbWritesReverseDifference : condHolds .cs (st [(0, 5), (1, 7)] 0x2).flags = true := by decide
theorem witness_AddWritesSum : condHolds .cc (st [(0, 5), (1, 7)] 0x0).flags = true := by decide
theorem witness_AdcWritesSumWithCarry : condHolds .mi (st [(0, 5), (1, 7)] 0x8).flags = true := by decide
theorem witness_SbcWritesDifferenceWithBorrow : condHolds .pl (st [(0, 5), (1, 7)] 0x0).flags = true := by decide
theorem witness_RscWritesReverseDifferenceWithBorrow : condHolds .vs (st [(0, 5), (1, 7)] 0x1).flags = true := by decide
theorem witness_TstSetsFlagsOfAnd : condHolds .vc (st [(0, 5), (1, 7)] 0x0).flags = true := by decide
theorem witness_TeqSetsFlagsOfExclusiveOr : condHolds .hi (st [(0, 5), (1, 7)] 0x2).flags = true := by decide
theorem witness_CmpSetsFlagsOfDifference : condHolds .ls (st [(0, 5), (1, 7)] 0x4).flags = true := by decide
theorem witness_CmnSetsFlagsOfSum : condHolds .ge (st [(0, 5), (1, 7)] 0x0).flags = true := by decide
theorem witness_OrrWritesBitwiseOr : condHolds .lt (st [(0, 5), (1, 7)] 0x8).flags = true := by decide
theorem witness_MovWritesOperand : condHolds .gt (st [(0, 5), (1, 7)] 0x0).flags = true := by decide
theorem witness_BicClearsBits : condHolds .le (st [(0, 5), (1, 7)] 0x4).flags = true := by decide
theorem witness_MvnWritesComplement : condHolds .al (st [(0, 5), (1, 7)] 0x0).flags = true := by decide
theorem witness_BranchGoesToItsTarget : condHolds .ne (st [(15, 0xFFFFFFFC)] 0).flags = true := by decide
theorem witness_BranchWithLinkSavesReturnAddress : condHolds .vs (st [(15, 0xFFFFFFFC)] 1).flags = true := by decide
theorem witness_CompareOrdersSignedAndUnsigned : condHolds .hi (st [(0, 0x80000000), (1, 1)] 2).flags = true := by decide
theorem witness_FalseConditionOnlyAdvances : condHolds (Instr.addImm .eq true 0 0 0 1).cond (st [(0, 5)] 0).flags = false ∧
    condHolds (Instr.bl .eq 5).cond (st [] 0).flags = false := by decide
/-- All three cases of the second word: equal, differing in w[7], differing in w[0]. -/
theorem witness_ReencodingClearsOnlyIgnoredBits :
    decode 0xE19436B5#32 = .ok (.orrRsr .al true 4 3 .logicalRight 6 5) ∧ decode 0xE1943635#32 = .ok (.orrRsr .al true 4 3 .logicalRight 6 5) ∧
    decode 0xE9FFFFFF#32 = .ok (.b .al 0xFFFFFF) ∧ decode 0xE9FFFFFE#32 = .ok (.b .al 0xFFFFFF) ∧
    decode 0xE3B00001#32 = .ok (.movImm .al true 0 0 0 1) := by decide
/-- Boundary words of each case: codes 14 and 15, the four classes. -/
theorem witness_DecodeFailsInExactlyTwoCases : 0xF0000000 / 2 ^ 28 = 15 ∧ 0xE4000000 / 2 ^ 28 ≠ 15 ∧ 0xE4000000 / 2 ^ 26 % 4 = 1 ∧
    0xEFFFFFFF / 2 ^ 26 % 4 = 3 ∧ 0xE3FFFFFF / 2 ^ 26 % 4 = 0 ∧ 0xE8000000 / 2 ^ 26 % 4 = 2 := by decide
theorem witness_IgnoredBitsDoNotMatter : isShiftByRegForm 0xE19436B5#32 = true ∧ isBranchForm 0xE9FFFFFF#32 = true ∧
    isShiftByRegForm (encode (.orrRsr .al true 4 3 .logicalRight 6 5)) = true ∧ isBranchForm (encode (.b .al 0xFFFFFF)) = true := by decide
theorem witness_ImmediateOperandRotatesLeft : (immOperand 15 0xFF).getLsbD 22 = true ∧ 23 ≤ 23 := by decide
theorem witness_ShiftUnitIsExact : (31 : Nat) < 32 ∧ (32 : Nat) ≤ 32 := by decide
/-- Low words in R0 and R2, high words in R1 and R3, the sum in R0 and R1. -/
theorem witness_AddThenAdcAddsSixtyFourBits : (0 : Reg) ≠ Reg.pc ∧ (1 : Reg) ≠ Reg.pc ∧ (0 : Reg) ≠ 1 ∧ (0 : Reg) ≠ 3 ∧ (3 : Reg) ≠ Reg.pc := by
  decide
theorem witness_SubThenSbcSubtractsSixtyFourBits : (4 : Reg) ≠ Reg.pc ∧ (5 : Reg) ≠ Reg.pc ∧ (4 : Reg) ≠ 1 ∧ (4 : Reg) ≠ 3 ∧ (4 : Reg) ≠ 5 ∧
    (1 : Reg) ≠ Reg.pc ∧ (3 : Reg) ≠ Reg.pc := by decide
theorem witness_UnusedFieldsHaveNoEffect : (Opcode.mvn = .mov ∨ Opcode.mvn = .mvn) ∧
    (Opcode.cmn = .tst ∨ Opcode.cmn = .teq ∨ Opcode.cmn = .cmp ∨ Opcode.cmn = .cmn) ∧ (15 : Reg) ≠ 0 := by decide
/-- A branch; a register that neither is the pc nor the destination; and the destination's exclusion. -/
theorem witness_EveryInstructionWritesOnlyItsDestination : (Instr.bl .al 0).isBranch = true ∧ (Instr.bl .al 0).dest ≠ some 13 ∧
    (13 : Reg) ≠ Reg.pc ∧ (Instr.movImm .al true 0 15 0 1).dest ≠ some 14 := by decide
/-- Two states that differ in memory and in R9 and agree on what `add r2, r0, r1` reads. -/
theorem witness_InstructionsReadOnlyWhatTheyName :
    (st [(0, 5), (1, 7), (9, 1)] 2).flags = ((st [(0, 5), (1, 7), (9, 2)] 2).setMem ⟨4, []⟩).flags ∧
    (st [(0, 5), (1, 7), (9, 1)] 2).pc = ((st [(0, 5), (1, 7), (9, 2)] 2).setMem ⟨4, []⟩).pc ∧
    (∀ r ∈ (Instr.addRsi .al true 0 2 .logicalLeft 0 1).sources,
      (st [(0, 5), (1, 7), (9, 1)] 2).x r = ((st [(0, 5), (1, 7), (9, 2)] 2).setMem ⟨4, []⟩).x r) ∧
    (condHolds (Instr.addRsi .al true 0 2 .logicalLeft 0 1).cond (st [(0, 5), (1, 7), (9, 1)] 2).flags = true ∧
      (Instr.addRsi .al true 0 2 .logicalLeft 0 1).dest = some 2) := by decide
theorem witness_StepRunsTheDecodedInstruction :
    Claim.WordAt movState.mem movState.pc.toNat 0xE3B00001#32 ∧ decode 0xE3B00001#32 = .ok (.movImm .al true 0 0 0 1) := by
  unfold Claim.WordAt; decide
/-- Each clause at the edge of its range; no state meets two. -/
theorem witness_StepErrorsInFixedOrder :
    shortState.mem.size < shortState.pc.toNat + 4 ∧
    ((withBytes 4 [0xFC, 0, 0, 0] 0).pc.toNat + 4 ≤ (withBytes 4 [0xFC, 0, 0, 0] 0).mem.size ∧
      ((withBytes 4 [0xFC, 0, 0, 0] 0).mem.fetchWord 0).toNat / 2 ^ 28 = 15) ∧
    (((withBytes 4 [0xEC, 0, 0, 0] 0).mem.fetchWord 0).toNat / 2 ^ 28 ≠ 15 ∧
      ((withBytes 4 [0xEC, 0, 0, 0] 0).mem.fetchWord 0).toNat / 2 ^ 26 % 2 = 1) ∧
    ((movState.mem.fetchWord 0).toNat / 2 ^ 28 ≠ 15 ∧ (movState.mem.fetchWord 0).toNat / 2 ^ 26 % 2 = 0 ∧
      movState.pc.toNat + 4 ≤ movState.mem.size) := by decide
theorem witness_EngineNeverWritesMemory : (nextState (step movState)).isSome = true := by decide
/-- Reset is aligned and steps: its zero memory decodes to `andeq r0, r0, r0`. -/
theorem witness_AlignmentKeptByBranchOnlyCode : State.reset.aligned ∧ (nextState (step State.reset)).isSome = true := by
  refine ⟨⟨by decide, fun k i h => ?_⟩, by decide⟩
  rw [show State.reset.mem = ⟨2 ^ 32, []⟩ from rfl, fetchWord_empty,
    show decode 0x00000000#32 = .ok (.andRsi .eq false 0 0 .logicalLeft 0 0) from by decide] at h
  cases h
  decide
theorem witness_SessionKeepsMemoryCanonical : movState.memOk := by unfold State.memOk; decide
/-- Two bytes with equal low halves; and a call that answers. -/
theorem witness_FlagsByteAtTheBoundary : (0xF3 : Byte).toNat % 16 = (0x03 : Byte).toNat % 16 ∧
    (match stepCall movState.mem movState.regs 0xF3 with
      | .next _ => true
      | .fault _ => false
      | .refused _ => false) = true := by decide
theorem witness_PortsAreWithinTheirLimits : (ports movState).rfWr = some (0, 1) ∧ (ports shortState).err ≠ 0 := by decide
theorem witness_FailedStepRepeatsItsError : step shortState = .fault (.fetchError 5) := rfl
/-- The four bytes are the last of memory; both ends of `k`, and another byte beside each; words that decode, with an ignored bit set, and that
do not decode. -/
theorem witness_HostWriteIsSeenByTheNextFetch : ((withBytes 8 [] 4).memOk ∧ (withBytes 8 [] 4).pc.toNat + 4 = (withBytes 8 [] 4).mem.size) ∧
    ((0 : Nat) < 4 ∧ (3 : Nat) < 4 ∧ (3 : Nat) ≠ 0) ∧ (decode 0xE9FFFFFF#32 = .ok (.b .al 0xFFFFFF) ∧
    decode 0xFC000000#32 = .error .invalidCondition ∧ decode 0x04000000#32 = .error .reservedClass) := by
  unfold State.memOk; decide
/-- The state right after the call itself still holds the link value. -/
theorem witness_CallReturnsThroughLinkRegister : condHolds .al (st [(15, 0x100)] 0).flags = true ∧
    ((nextState (exec (.bl .al 5) (st [(15, 0x100)] 0))).map fun t => t.x Reg.lr) = some 0x104 := by decide
/-- One byte short, and exactly long enough. -/
theorem witness_SerializeLaysOutTheProgram : (⟨7, []⟩ : Memory).wf = true ∧ (⟨8, []⟩ : Memory).wf = true ∧
    7 < 4 * [Instr.b .al 0, .b .al 1].length ∧ 4 * [Instr.b .al 0, .b .al 1].length ≤ 8 := by decide
/-- The last instruction of a program that fills its memory. -/
theorem witness_SerializedProgramRuns : (⟨8, []⟩ : Memory).wf = true ∧
    ∃ m', serialize [.movImm .al true 0 0 0 1, .b .al 0xFFFFFF] ⟨8, []⟩ = some m' ∧ ((State.reset.setMem m').setPc 4).mem = m' ∧
      ((State.reset.setMem m').setPc 4).pc.toNat = 4 * 1 ∧ 1 < [Instr.movImm .al true 0 0 0 1, .b .al 0xFFFFFF].length :=
  ⟨by decide, _, rfl, rfl, rfl, by decide⟩
/-- The two ends of the reach: offsets -2^23 and 2^23 - 1. -/
theorem witness_AssembledBranchReachesItsLabel :
    (0 % 4 = 0 ∧ 33554428 % 4 = 0 ∧ (33554428 : Nat) < 2 ^ 32 ∧ -(2 ^ 23 : Int) ≤ 0 / 4 - (33554428 / 4 + 1)) ∧
    (33554432 % 4 = 0 ∧ (33554432 : Nat) < 2 ^ 32 ∧ (33554432 / 4 : Int) - (0 / 4 + 1) < 2 ^ 23) := by decide
theorem witness_AssemblerSetsSInEveryInstruction : assembled [line ['m', 'o', 'v'] [reg 0, lit [1]]] = .ok [0xE3B00001] := by decide
theorem witness_AssembledProgramShape : assembled [.labelDef ['a'], line ['b'] [⟨.label ['a'], sp⟩]] = .ok [0xE9FFFFFE] := by decide
/-- The name is defined before and again, and another name after. -/
theorem witness_LaterLabelDefinitionWins : Line.labelDef ['L'] ∉ [Line.blank, .labelDef ['l']] ∧
    (pass1 ([.labelDef ['L'], line ['b'] []] ++ .labelDef ['L'] :: [Line.blank, .labelDef ['l']]) 0 []).lookup ['L'] = some 4 := by decide

end Sys2Proof.Tests
end

section
/-! PROOFS about the state (spec/10_state.md): what an instruction writes and reads (R17), that a program which writes R15 only
through its branches keeps the pc aligned (R22), and the packed flags byte (R25). -/

namespace Sys2Proof.Machine

open Sys2Proof.Claim

/-! ## The gate, and the register a body writes -/

/-- An instruction whose condition is false only advances (R104). -/
theorem exec_of_not_holds (i : Instr) (s : State) (h : condHolds i.cond s.flags = false) : exec i s = .next s.advance := by
  rw [exec_eq_gated, gated_false h]

/-- No instruction writes memory (R33). -/
theorem exec_mem {i : Instr} {s t : State} (h : exec i s = .next t) : t.mem = s.mem := by
  cases hc : condHolds i.cond s.flags with
  | true =>
    rw [exec_of_holds i s hc] at h
    cases h
    exact bodyEffect_mem _ s
  | false =>
    rw [exec_of_not_holds i s hc] at h
    cases h
    rfl

/-- The register a body writes besides the pc's own advance: `Instr.dest`, on the Instruction value (R17). -/
def bodyDest : Body → Option Reg
  | .dataProcessing op _ _ rd _ => if writesRd op then some rd else none
  | .branch true _ => some Reg.lr
  | .branch false _ => none

theorem dest_eq_bodyDest (i : Instr) : i.dest = bodyDest i.toInstruction.body := by
  unfold Instr.dest bodyDest
  rfl

/-- The effect of a body leaves every register but the pc and its destination as it was. -/
theorem x_bodyEffect_ne (body : Body) (s : State) {q : Reg} (hq : q ≠ Reg.pc) (hd : bodyDest body ≠ some q) :
    (bodyEffect body s).x q = s.x q := by
  cases body with
  | dataProcessing op sb rn rd operand =>
    cases hw : writesRd op with
    | true =>
      have hrd : rd ≠ q := by simpa [bodyDest, hw] using hd
      simp [bodyEffect, hw, x_writeResult_ne s rd _ hq, hrd]
    | false => simp [bodyEffect, hw, x_compareResult_ne s _ hq]
  | branch link offset =>
    cases link with
    | true =>
      have hlr : Reg.lr ≠ q := by simpa [bodyDest] using hd
      exact (x_setPc_ne _ _ hq).trans (x_setX_ne s Reg.lr _ hlr)
    | false => exact x_setPc_ne s _ hq

/-- A branch changes no flag (R24). -/
theorem bodyEffect_branch_flags (link : Bool) (offset : BitVec 24) (s : State) :
    (bodyEffect (.branch link offset) s).flags = s.flags := by cases link <;> rfl

/-- A branch whose condition holds goes to its target, whether it links or not (R146, R147). -/
theorem pc_bodyEffect_branch (link : Bool) (offset : BitVec 24) (s : State) :
    (bodyEffect (.branch link offset) s).pc = branchTarget s.pc offset := by cases link <;> exact pc_setPc _ _

/-- A data-processing body that does not write R15 moves the pc on by 4 (R107). -/
theorem pc_bodyEffect_dataProcessing (op : Opcode) (sb : Bool) (rn rd : Reg) (operand : Operand) (s : State)
    (hd : bodyDest (.dataProcessing op sb rn rd operand) ≠ some Reg.pc) :
    (bodyEffect (.dataProcessing op sb rn rd operand) s).pc = s.pc + 4 := by
  cases hw : writesRd op with
  | true =>
    have hrd : rd ≠ Reg.pc := by simpa [bodyDest, hw] using hd
    simp [bodyEffect, hw, pc_writeResult, hrd]
  | false => simp [bodyEffect, hw]

/-! ## Writes only the destination (R17) -/

theorem sameMemory_of_mem_eq {s t : State} (h : t.mem = s.mem) : SameMemory s t := by simp [SameMemory, h]

/-- Only the Branch class is a branch, so a branch leaves the flags. -/
theorem bodyEffect_flags_of_isBranch {i : Instr} (h : i.isBranch = true) (s : State) :
    (bodyEffect i.toInstruction.body s).flags = s.flags := by
  unfold Instr.isBranch at h
  cases hb : i.toInstruction.body with
  | dataProcessing op sb rn rd operand => simp [hb] at h
  | branch link offset => exact bodyEffect_branch_flags link offset s

/-- Settles O36: the frame of the body when the condition holds, the frame of the advance when it does not. -/
theorem everyInstructionWritesOnlyItsDestination : Obligations.EveryInstructionWritesOnlyItsDestination := by
  unfold Obligations.EveryInstructionWritesOnlyItsDestination
  intro i s
  cases hc : condHolds i.cond s.flags with
  | true =>
    refine ⟨_, exec_of_holds i s hc, fun q hq hd => x_bodyEffect_ne _ s hq ?_,
      fun hb => bodyEffect_flags_of_isBranch hb s, sameMemory_of_mem_eq (bodyEffect_mem _ s)⟩
    rwa [← dest_eq_bodyDest]
  | false =>
    exact ⟨_, exec_of_not_holds i s hc, fun q hq _ => x_advance_ne s hq, fun _ => rfl, sameMemory_of_mem_eq rfl⟩

/-! ## Reads only the sources (R17) -/

/-- The second operand is a function of the registers it names (R122). -/
theorem operand2_congr {operand : Operand} {s s' : State} (h : ∀ r ∈ Operand.sources operand, s.x r = s'.x r) :
    operand2 operand s = operand2 operand s' := by
  cases operand with
  | immediate rotate value => rfl
  | shiftByImm type amount rm =>
    have hrm : s.x rm = s'.x rm := h rm (by simp [Operand.sources])
    simp [operand2, shiftImmOperand, hrm]
  | shiftByReg type rs rm =>
    have hrm : s.x rm = s'.x rm := h rm (by simp [Operand.sources])
    have hrs : s.x rs = s'.x rs := h rs (by simp [Operand.sources])
    simp [operand2, shiftRegOperand, regShiftAmount_eq, hrm, hrs]

/-- MOV and MVN, the opcodes that do not read Rn, give the same output for every first operand (R121). -/
theorem alu_lhs_of_not_readsRn {op : Opcode} (h : readsRn op = false) (lhs lhs' rhs : Word) (f : Flags) :
    alu op lhs rhs f = alu op lhs' rhs f := by
  have hop : op = .mov ∨ op = .mvn := by cases op <;> simp [readsRn] at h ⊢
  obtain rfl | rfl := hop <;> rfl

/-- The ALU's output is a function of the flags and the registers the body names. -/
theorem dpOut_congr {op : Opcode} {sb : Bool} {rn rd : Reg} {operand : Operand} {s s' : State} (hf : s.flags = s'.flags)
    (h : ∀ r ∈ Body.sources (.dataProcessing op sb rn rd operand), s.x r = s'.x r) :
    dpOut op rn operand s = dpOut op rn operand s' := by
  have hop : operand2 operand s = operand2 operand s' :=
    operand2_congr fun r hr => h r (by simp [Body.sources, hr])
  unfold dpOut
  rw [hop, hf]
  cases hr : readsRn op with
  | true => rw [h rn (by simp [Body.sources, hr])]
  | false => exact alu_lhs_of_not_readsRn hr _ _ _ _

/-- Two states agree on what a body reads: the flags, the pc and its sources (R17). -/
structure AgreeOnReads (body : Body) (s s' : State) : Prop where
  flags : s.flags = s'.flags
  pc : s.pc = s'.pc
  sources : ∀ r ∈ Body.sources body, s.x r = s'.x r

section
variable {body : Body} {s s' : State} (h : AgreeOnReads body s s')
include h

theorem bodyEffect_flags_agree : (bodyEffect body s).flags = (bodyEffect body s').flags := by
  cases body with
  | dataProcessing op sb rn rd operand => simp only [bodyEffect, dpOut_congr h.flags h.sources]; split <;> rfl
  | branch link offset => simp only [bodyEffect_branch_flags, h.flags]

theorem bodyEffect_pc_agree : (bodyEffect body s).pc = (bodyEffect body s').pc := by
  cases body with
  | dataProcessing op sb rn rd operand =>
    simp only [bodyEffect, dpOut_congr h.flags h.sources]
    split
    · simp only [pc_writeResult, h.pc]
    · simp only [pc_compareResult, h.pc]
  | branch link offset => simp only [pc_bodyEffect_branch, h.pc]

/-- The register a body writes, the pc apart, gets the same value in both. -/
theorem bodyEffect_dest_agree {q : Reg} (hq : q ≠ Reg.pc) (hd : bodyDest body = some q) :
    (bodyEffect body s).x q = (bodyEffect body s').x q := by
  cases body with
  | dataProcessing op sb rn rd operand =>
    cases hw : writesRd op with
    | true =>
      obtain rfl : rd = q := by simpa [bodyDest, hw] using hd
      simp [bodyEffect, hw, x_writeResult_ne _ _ _ hq, dpOut_congr h.flags h.sources]
    | false => simp [bodyDest, hw] at hd
  | branch link offset =>
    cases link with
    | true =>
      obtain rfl : Reg.lr = q := by simpa [bodyDest] using hd
      simp only [bodyEffect, x_setPc_ne _ _ hq, x_setX_same, h.pc]
    | false => simp [bodyDest] at hd

/-- A register agrees after the effect if it agreed before or is the one written. -/
theorem bodyEffect_x_agree {q : Reg} (hx : s.x q = s'.x q ∨ bodyDest body = some q) :
    (bodyEffect body s).x q = (bodyEffect body s').x q := by
  by_cases hq : q = Reg.pc
  · subst hq
    exact bodyEffect_pc_agree h
  by_cases hd : bodyDest body = some q
  · exact bodyEffect_dest_agree h hq hd
  · rw [x_bodyEffect_ne body s hq hd, x_bodyEffect_ne body s' hq hd]
    exact hx.resolve_right hd

end

/-- The advance keeps every agreement between two states with one pc. -/
theorem advance_x_agree {s s' : State} (hpc : s.pc = s'.pc) {q : Reg} (hx : s.x q = s'.x q) : s.advance.x q = s'.advance.x q := by
  by_cases hq : q = Reg.pc
  · subst hq
    show s.advance.pc = s'.advance.pc
    rw [pc_advance, pc_advance, hpc]
  · rw [x_advance_ne s hq, x_advance_ne s' hq, hx]

/-- Settles O37: equal flags give both states the same branch of the gate, and each branch keeps the agreement. -/
theorem instructionsReadOnlyWhatTheyName : Obligations.InstructionsReadOnlyWhatTheyName := by
  unfold Obligations.InstructionsReadOnlyWhatTheyName
  intro i s s' hf hpc hsrc
  have agree : AgreeOnReads i.toInstruction.body s s' := ⟨hf, hpc, hsrc⟩
  cases hc : condHolds i.cond s.flags with
  | true =>
    refine ⟨_, _, exec_of_holds i s hc, exec_of_holds i s' (hf ▸ hc), bodyEffect_flags_agree agree,
      bodyEffect_pc_agree agree, fun q hq => bodyEffect_x_agree agree ?_⟩
    rw [← dest_eq_bodyDest]
    exact hq.imp_right And.right
  | false =>
    refine ⟨_, _, exec_of_not_holds i s hc, exec_of_not_holds i s' (hf ▸ hc), hf, ?_, fun q hq => advance_x_agree hpc ?_⟩
    · rw [pc_advance, pc_advance, hpc]
    · exact hq.resolve_right (by simp)

/-! ## The pc stays a multiple of 4 (R22) -/

/-- The next word's address is a multiple of 4 if this one's is, past the end of the address space too. -/
theorem add_four_mod_four {a : Word} (h : a.toNat % 4 = 0) : (a + 4).toNat % 4 = 0 := by
  have : (a + 4).toNat = (a.toNat + 4) % 2 ^ 32 := BitVec.toNat_add a 4
  omega

/-- A branch at a multiple of 4 goes to a multiple of 4, whatever its offset. -/
theorem branchTarget_mod_four {a : Word} (offset : BitVec 24) (h : a.toNat % 4 = 0) : (branchTarget a offset).toNat % 4 = 0 := by
  rw [branchTarget_eq, BitVec.toNat_ofInt]
  omega

/-- The effect of a body that does not write R15 as its destination keeps the pc a multiple of 4. -/
theorem pc_bodyEffect_mod_four {body : Body} {s : State} (hd : bodyDest body ≠ some Reg.pc) (h : s.pc.toNat % 4 = 0) :
    (bodyEffect body s).pc.toNat % 4 = 0 := by
  cases body with
  | dataProcessing op sb rn rd operand =>
    rw [pc_bodyEffect_dataProcessing op sb rn rd operand s hd]
    exact add_four_mod_four h
  | branch link offset =>
    rw [pc_bodyEffect_branch]
    exact branchTarget_mod_four offset h

/-- An instruction that does not name R15 as its destination keeps the pc a multiple of 4. -/
theorem exec_pc_mod_four {i : Instr} {s t : State} (hd : i.dest ≠ some Reg.pc) (h : s.pc.toNat % 4 = 0)
    (ht : exec i s = .next t) : t.pc.toNat % 4 = 0 := by
  cases hc : condHolds i.cond s.flags with
  | true =>
    rw [exec_of_holds i s hc] at ht
    cases ht
    exact pc_bodyEffect_mod_four (dest_eq_bodyDest i ▸ hd) h
  | false =>
    rw [exec_of_not_holds i s hc] at ht
    cases ht
    rw [pc_advance]
    exact add_four_mod_four h

/-- The instruction a fetch answers is the one the word at the pc decodes to (R101, R102). -/
theorem decode_of_fetchInstr {s : State} {i : Instr} (h : s.fetchInstr = .ok i) :
    decode (s.mem.fetchWord s.pc.toNat) = .ok i := by
  unfold State.fetchInstr at h
  split at h
  · split at h
    case h_1 j hj =>
      cases h
      exact hj
    case h_2 => cases h
  · cases h

/-- In an aligned state the fetched instruction does not write R15 as its destination. -/
theorem dest_ne_pc_of_aligned {s : State} (hs : s.aligned) {i : Instr} (h : s.fetchInstr = .ok i) : i.dest ≠ some Reg.pc := by
  obtain ⟨hpc, hprog⟩ := hs
  refine hprog (s.pc.toNat / 4) i ?_
  rw [Nat.mul_div_cancel' (Nat.dvd_of_mod_eq_zero hpc)]
  exact decode_of_fetchInstr h

/-- Settles O42: the fetched instruction does not write R15, so the pc stays aligned, and memory stays as it was. -/
theorem alignmentKeptByBranchOnlyCode : Obligations.AlignmentKeptByBranchOnlyCode := by
  unfold Obligations.AlignmentKeptByBranchOnlyCode
  intro s t hs hstep
  obtain ⟨i, hi, hexec⟩ | ⟨e, _, hfault⟩ := step_cases s
  · have ht : exec i s = .next t := hexec ▸ hstep
    have hdest : i.dest ≠ some Reg.pc := dest_ne_pc_of_aligned hs hi
    obtain ⟨hpc, hprog⟩ := hs
    refine ⟨exec_pc_mod_four hdest hpc ht, ?_⟩
    rwa [exec_mem ht]
  · rw [hfault] at hstep
    cases hstep

/-! ## The packed flags byte (R25) -/

theorem flagNat_eq_toNat (b : Bool) : flagNat b = b.toNat := by cases b <;> rfl

theorem toNat_pack (f : Flags) :
    f.pack.toNat = 8 * flagNat f.n + 4 * flagNat f.z + 2 * flagNat f.c + flagNat f.v := by
  simp only [Flags.pack, toNat_append_eq, toNat_ofBool_eq, flagNat_eq_toNat]
  simp
  omega

/-- The upper half of a packed byte is 0. -/
theorem toNat_pack_lt (f : Flags) : f.pack.toNat < 16 := by
  have := f.n.toNat_le
  have := f.z.toNat_le
  have := f.c.toNat_le
  have := f.v.toNat_le
  simp only [toNat_pack, flagNat_eq_toNat]
  omega

/-- The upper half of a flags byte is not read. -/
theorem unpack_congr {b b' : Byte} (h : b.toNat % 16 = b'.toNat % 16) : Flags.unpack b = Flags.unpack b' := by
  simp only [Flags.unpack, getLsbD_eq_div, Flags.mk.injEq, decide_eq_decide]
  omega

/-- The flags byte a call returns is a packed one. -/
theorem stepCall_flagsByte {ram : Memory} {registers registers' : Vector Word 16} {b b' : Byte}
    (h : stepCall ram registers b = .next (registers', b')) : ∃ f : Flags, b' = f.pack := by
  unfold stepCall at h
  split at h
  · cases h
    exact ⟨_, rfl⟩
  · cases h
  · cases h

/-- Settles O46: a call reads its flags byte through `unpack` and returns one made by `pack`. -/
theorem flagsByteAtTheBoundary : Obligations.FlagsByteAtTheBoundary := by
  unfold Obligations.FlagsByteAtTheBoundary
  refine ⟨fun f => ⟨toNat_pack f, unpack_pack f⟩, fun ram registers b b' h => ?_, fun ram registers registers' b b' h => ?_⟩
  · simp only [stepCall, stateOfCall, unpack_congr h]
  · obtain ⟨f, rfl⟩ := stepCall_flagsByte h
    exact toNat_pack_lt f

end Sys2Proof.Machine
end

section
/-! PROOFS about the codec (spec/30_encoding.md): decoding reads back every field that encoding wrote (R63). Loading a program
and running it (R46) rests on this. -/

namespace Sys2Proof

theorem ofInstruction_toInstruction (i : Instr) : Instr.ofInstruction i.toInstruction = i := by cases i <;> rfl

/-- A field holds the value that the word's quotient and remainder give. -/
theorem extractLsb'_eq_of_toNat {m b a : Nat} {x : BitVec m} {v : BitVec b} (h : x.toNat / 2 ^ a % 2 ^ b = v.toNat) :
    x.extractLsb' a b = v := BitVec.eq_of_toNat_eq ((toNat_field x a b).trans h)

/-- A flag bit holds the value that the word's quotient modulo 2 gives. -/
theorem getLsbD_eq_of_toNat {m k : Nat} {x : BitVec m} {v : Bool} (h : x.toNat / 2 ^ k % 2 = v.toNat) : x.getLsbD k = v := by
  rw [getLsbD_eq_div, h]
  cases v <;> rfl

/-! ## The second operand (R53, R54) -/

/-- A word whose I bit and low 12 bits are those of an encoded operand decodes to that operand. -/
theorem decodeOperand_of_fields {w : Word} (o : Operand) (hi : w.getLsbD 25 = (encodeOperand o).1)
    (hlow : w.toNat % 2 ^ 12 = (encodeOperand o).2.toNat) : decodeOperand w = o := by
  cases o with
  | immediate rotate value =>
    replace hlow : w.toNat % 2 ^ 12 = rotate.toNat * 2 ^ 8 + value.toNat := by rw [hlow]; exact toNat_append_eq rotate value
    have hrotate : w.extractLsb' 8 4 = rotate := extractLsb'_eq_of_toNat (by omega)
    have hvalue : w.extractLsb' 0 8 = value := extractLsb'_eq_of_toNat (by omega)
    simp only [decodeOperand, hi, encodeOperand, if_true, hrotate, hvalue]
  | shiftByImm type amount rm =>
    simp only [encodeOperand, toNat_append_eq, BitVec.toNat_ofNat] at hlow
    have hform : w.getLsbD 4 = false := getLsbD_eq_of_toNat (by simp; omega)
    have htype : w.extractLsb' 5 2 = type.code := extractLsb'_eq_of_toNat (by omega)
    have hamount : w.extractLsb' 7 5 = amount := extractLsb'_eq_of_toNat (by omega)
    have hrm : w.extractLsb' 0 4 = regBits rm := extractLsb'_eq_of_toNat (by omega)
    simp only [decodeOperand, hi, encodeOperand, hform, htype, hamount, hrm, shiftOfCode_code, regOfBits_regBits,
      Bool.false_eq_true, if_false]
  | shiftByReg type rs rm =>
    simp only [encodeOperand, toNat_append_eq, BitVec.toNat_ofNat] at hlow
    have hform : w.getLsbD 4 = true := getLsbD_eq_of_toNat (by simp; omega)
    have htype : w.extractLsb' 5 2 = type.code := extractLsb'_eq_of_toNat (by omega)
    have hrs : w.extractLsb' 8 4 = regBits rs := extractLsb'_eq_of_toNat (by omega)
    have hrm : w.extractLsb' 0 4 = regBits rm := extractLsb'_eq_of_toNat (by omega)
    simp only [decodeOperand, hi, encodeOperand, hform, htype, hrs, hrm, shiftOfCode_code, regOfBits_regBits,
      Bool.false_eq_true, if_false, if_true]

/-! ## The body and the condition (R51, R52, R55) -/

/-- The body of an encoded instruction decodes to that body. -/
theorem decodeBody_encodeInstruction (c : Cond) (body : Body) : decodeBody (encodeInstruction ⟨c, body⟩) = .ok body := by
  cases body with
  | dataProcessing op s rn rd o =>
    have hw := toNat_encode_dataProcessing c op s rn rd o
    generalize encodeInstruction ⟨c, .dataProcessing op s rn rd o⟩ = w at hw ⊢
    have := s.toNat_le
    have := (encodeOperand o).1.toNat_le
    have hclass : w.extractLsb' 26 2 = 0#2 := extractLsb'_eq_of_toNat (by simp; omega)
    have hop : w.extractLsb' 21 4 = op.code := extractLsb'_eq_of_toNat (by omega)
    have hs : w.getLsbD 20 = s := getLsbD_eq_of_toNat (by omega)
    have hrn : w.extractLsb' 16 4 = regBits rn := extractLsb'_eq_of_toNat (by omega)
    have hrd : w.extractLsb' 12 4 = regBits rd := extractLsb'_eq_of_toNat (by omega)
    have ho : decodeOperand w = o := decodeOperand_of_fields o (getLsbD_eq_of_toNat (by omega)) (by omega)
    simp only [decodeBody, hclass, hop, hs, hrn, hrd, ho, opcodeOfCode_code, regOfBits_regBits]
    rfl
  | branch link offset =>
    have hw := toNat_encode_branch c link offset
    generalize encodeInstruction ⟨c, .branch link offset⟩ = w at hw ⊢
    have := link.toNat_le
    have hclass : w.extractLsb' 26 2 = 2#2 := extractLsb'_eq_of_toNat (by simp; omega)
    have hlink : w.getLsbD 25 = link := getLsbD_eq_of_toNat (by omega)
    have hoffset : w.extractLsb' 1 24 = offset := extractLsb'_eq_of_toNat (by omega)
    simp only [decodeBody, hclass, hlink, hoffset]
    rfl

/-- The condition field of an encoded instruction is its condition's code. -/
theorem encodeInstruction_cond (i : Instruction) : (encodeInstruction i).extractLsb' 28 4 = i.cond.code := by
  refine extractLsb'_eq_of_toNat ?_
  rw [encodeInstruction, toNat_append_eq]
  omega

theorem decodeInstruction_encodeInstruction (i : Instruction) : decodeInstruction (encodeInstruction i) = .ok i := by
  obtain ⟨c, body⟩ := i
  simp [decodeInstruction, encodeInstruction_cond, decodeBody_encodeInstruction]

/-- Decoding an encoded instruction gives the instruction back, with the fields it ignores (R63, R65). -/
@[simp] theorem decode_encode (i : Instr) : decode (encode i) = .ok i := by
  simp [decode, encode, decodeInstruction_encodeInstruction, ofInstruction_toInstruction]

end Sys2Proof
end

section
/-! PROOFS about the memory (spec/20_memory.md): the word at an address (R34), what the host's writes and `serialize` lay down
(R44, R46) and what a step makes of it, and that steps and host acts keep the memory's form and size (R33, R41). -/

namespace Sys2Proof.Machine

open Sys2Proof.Claim

/-! ## The word at an address (R34) -/

/-- A word is the sum of its bytes, the first the most significant. -/
theorem toNat_wordOfBytes (b0 b1 b2 b3 : Byte) :
    (wordOfBytes b0 b1 b2 b3).toNat = b0.toNat * 2 ^ 24 + b1.toNat * 2 ^ 16 + b2.toNat * 2 ^ 8 + b3.toNat := by
  simp only [wordOfBytes, toNat_append_eq]
  omega

/-- Settles O38: the fetched word is `wordOfBytes` of the four bytes in address order. -/
theorem fetchWordIsBigEndian : Obligations.FetchWordIsBigEndian := by
  unfold Obligations.FetchWordIsBigEndian
  intro m a
  exact toNat_wordOfBytes _ _ _ _

/-- A word lies at an address exactly when it is inside memory there and a fetch reads it. -/
theorem wordAt_iff {m : Memory} {a : Nat} {w : Word} : WordAt m a w ↔ a + 4 ≤ m.size ∧ m.fetchWord a = w := by
  constructor
  · rintro ⟨hin, h0, h1, h2, h3⟩
    refine ⟨hin, ?_⟩
    rw [Memory.fetchWord, h0, h1, h2, h3]
    exact wordOfBytes_byteOfWord w
  · rintro ⟨hin, rfl⟩
    have hbyte (k : Nat) (hk : k < 4) : m.readByte (a + k) = byteOfWord (m.fetchWord a) k := (byteOfWord_fetchWord m a hk).symm
    exact ⟨hin, hbyte 0 (by omega), hbyte 1 (by omega), hbyte 2 (by omega), hbyte 3 (by omega)⟩

/-- A fetch reads its own four bytes only. -/
theorem fetchWord_congr {m m' : Memory} {a : Nat} (h : ∀ q, a ≤ q → q < a + 4 → m'.readByte q = m.readByte q) :
    m'.fetchWord a = m.fetchWord a := by
  rw [Memory.fetchWord, Memory.fetchWord, h a (by omega) (by omega), h (a + 1) (by omega) (by omega),
    h (a + 2) (by omega) (by omega), h (a + 3) (by omega) (by omega)]

/-- A word laid down inside memory is the word a fetch reads there. -/
theorem fetchWord_writeWord {m : Memory} (h : m.wf = true) {a : Nat} (ha : a + 4 ≤ m.size) (w : Word) :
    (m.writeWord a w).fetchWord a = w := by
  simp [Memory.fetchWord, readByte_writeWord h ha]

/-- A step decodes exactly the word that lies at the pc (R101, R102). -/
theorem stepDecodes_of_wordAt {s : State} {w : Word} (h : WordAt s.mem s.pc.toNat w) : StepDecodes s w := by
  obtain ⟨hin, hw⟩ := wordAt_iff.1 h
  have hstep := step_inBounds hin
  rw [hw] at hstep
  refine ⟨hin, hw, fun i hd => ?_, fun hd => ?_, fun hd => ?_⟩
  · rw [hstep, hd]
  · rw [hstep, hd]
    rfl
  · rw [hstep, hd]
    rfl

/-- A step runs the instruction whose word lies at the pc (R105). -/
theorem step_of_wordAt {s : State} {w : Word} {i : Instr} (h : WordAt s.mem s.pc.toNat w) (hd : decode w = .ok i) :
    step s = exec i s := by
  obtain ⟨_, _, hexec, _, _⟩ := stepDecodes_of_wordAt h
  exact hexec i hd

/-! ## Steps and host acts keep the memory's form and size (R33, R41) -/

/-- A step leaves memory as it was (R33). -/
theorem step_mem {s t : State} (h : step s = .next t) : t.mem = s.mem := by
  obtain ⟨i, _, hexec⟩ | ⟨e, _, hfault⟩ := step_cases s
  · exact exec_mem (hexec ▸ h)
  · rw [hfault] at h
    cases h

/-- Settles O41: a step that answers a next state has run one instruction, and no instruction writes memory. -/
theorem engineNeverWritesMemory : Obligations.EngineNeverWritesMemory := by
  unfold Obligations.EngineNeverWritesMemory
  intro s t h
  exact ⟨step_mem h, sameMemory_of_mem_eq (step_mem h)⟩

theorem serialize_size {p : List Instr} {m m' : Memory} (h : serialize p m = some m') : m'.size = m.size := by
  unfold serialize at h
  split at h
  · cases h
    rw [size_writeProgram, size_clear]
  · cases h

/-- The memory is canonical and MEM_SIZE is `n` (R31, R199). -/
def State.canonicalOfSize (n : Nat) (s : State) : Prop := s.memOk ∧ s.mem.size = n

/-- A host act keeps the canonical form and MEM_SIZE (logs 11 and 19). -/
theorem apply_canonicalOfSize {n : Nat} (act : HostAction) {s : State} (h : s.canonicalOfSize n) :
    (act.apply s).canonicalOfSize n := by
  obtain ⟨hwf, hsize⟩ := h
  cases act with
  | writeByte a b => exact ⟨writeByte_wf hwf a.toNat b, (size_writeByte s.mem a.toNat b).trans hsize⟩
  | writeRegister r v => exact ⟨hwf, hsize⟩
  | writeFlags b => exact ⟨hwf, hsize⟩
  | loadProgram p =>
    simp only [HostAction.apply]
    split
    case h_1 m hs => exact ⟨serialize_wf hwf hs, (serialize_size hs).trans hsize⟩
    case h_2 => exact ⟨hwf, hsize⟩

/-- A step keeps them too, since it leaves memory as it was. -/
theorem step_canonicalOfSize {n : Nat} {s t : State} (h : s.canonicalOfSize n) (ht : step s = .next t) : t.canonicalOfSize n := by
  unfold State.canonicalOfSize State.memOk at h ⊢
  rwa [step_mem ht]

/-- What every host act and every step that answers a next state keeps, a session keeps. -/
theorem session_invariant {P : State → Prop} (hhost : ∀ (act : HostAction) (s : State), P s → P (act.apply s))
    (hstep : ∀ s t : State, P s → step s = .next t → P t) (es : List Event) {s : State} (h : P s) : P (session es s).1 := by
  induction es generalizing s with
  | nil => exact h
  | cons e rest ih =>
    cases e with
    | host act => exact ih (hhost act s h)
    | step =>
      unfold session
      cases hs : step s with
      | next t => exact ih (hstep s t h hs)
      | fault e => exact ih h
      | refused r => exact ih h

/-- Settles O43: canonical form and size are an invariant of host acts and steps. -/
theorem sessionKeepsMemoryCanonical : Obligations.SessionKeepsMemoryCanonical := by
  unfold Obligations.SessionKeepsMemoryCanonical
  intro es s h
  exact session_invariant (P := State.canonicalOfSize s.mem.size) (fun act _ => apply_canonicalOfSize act)
    (fun _ _ => step_canonicalOfSize) es ⟨h, rfl⟩

/-! ## A host write is seen by the next fetch (R44) -/

/-- An address near the pc, below the end of the address space, is reached without wrap. -/
theorem toNat_add_ofNat {a : Word} (k : Nat) (h : a.toNat + k < 2 ^ 32) : (a + BitVec.ofNat 32 k).toNat = a.toNat + k := by
  rw [BitVec.toNat_add, BitVec.toNat_ofNat]
  omega

/-- A byte written inside memory is that byte of the word fetched over it, and the other bytes are as before. -/
theorem byteOfWord_fetchWord_writeByte {m : Memory} (h : m.wf = true) {a k : Nat} (hk : k < 4) (ha : a + 4 ≤ m.size) (b : Byte)
    {j : Nat} (hj : j < 4) :
    byteOfWord ((m.writeByte (a + k) b).fetchWord a) j = if j = k then b else byteOfWord (m.fetchWord a) j := by
  rw [byteOfWord_fetchWord _ _ hj, byteOfWord_fetchWord _ _ hj, readByte_writeByte h (by omega)]
  simp only [Nat.add_left_cancel_iff, eq_comm]

/-- The host's four byte writes of a word at the pc lay that word down there. -/
theorem session_writeWord {s : State} (h : s.pc.toNat + 4 ≤ 2 ^ 32) (w : Word) :
    session [.host (.writeByte s.pc (w.extractLsb' 24 8)), .host (.writeByte (s.pc + 1) (w.extractLsb' 16 8)),
      .host (.writeByte (s.pc + 2) (w.extractLsb' 8 8)), .host (.writeByte (s.pc + 3) (w.extractLsb' 0 8))] s
      = (s.setMem (s.mem.writeWord s.pc.toNat w), []) := by
  have h1 : (s.pc + 1).toNat = s.pc.toNat + 1 := toNat_add_ofNat 1 (by omega)
  have h2 : (s.pc + 2).toNat = s.pc.toNat + 2 := toNat_add_ofNat 2 (by omega)
  have h3 : (s.pc + 3).toNat = s.pc.toNat + 3 := toNat_add_ofNat 3 (by omega)
  simp only [session, HostAction.apply, h1, h2, h3]
  rfl

/-- Settles O50: the fetch reads the memory the host has written, so its word has the byte, or is the word, just written. -/
theorem hostWriteIsSeenByTheNextFetch : Obligations.HostWriteIsSeenByTheNextFetch := by
  unfold Obligations.HostWriteIsSeenByTheNextFetch
  intro s hwf hin
  have hsize : s.mem.size ≤ 2 ^ 32 := (wf_iff.1 hwf).1
  constructor
  · intro k b hk
    have byte (j : Nat) (hj : j < 4) := byteOfWord_fetchWord_writeByte hwf hk hin b hj
    refine ⟨s.setMem (s.mem.writeByte (s.pc.toNat + k) b), _, ?_, rfl, rfl,
      stepDecodes_of_wordAt (wordAt_iff.2 ⟨?_, rfl⟩), (byte k hk).trans (if_pos rfl),
      fun j hj hne => (byte j hj).trans (if_neg hne)⟩
    · simp only [session, HostAction.apply, toNat_add_ofNat k (show s.pc.toNat + k < 2 ^ 32 by omega)]
    · simpa using hin
  · intro w
    refine ⟨_, session_writeWord (by omega) w, rfl, rfl, stepDecodes_of_wordAt (wordAt_iff.2 ⟨?_, ?_⟩)⟩
    · simpa using hin
    · exact fetchWord_writeWord hwf hin w

/-! ## serialize (R46) -/

/-- A buffer that is too short is refused (D31). -/
theorem serialize_eq_none {p : List Instr} {m : Memory} (h : m.size < 4 * p.length) : serialize p m = none := by
  simp [serialize, programFits, h]

/-- A program that fits is laid down at 0 in the cleared buffer. -/
theorem serialize_eq_some {p : List Instr} {m : Memory} (h : 4 * p.length ≤ m.size) :
    serialize p m = some (m.clear.writeProgram 0 p) := by
  simp [serialize, programFits, h]

/-- A program that fits leaves every byte outside its own as it was. -/
theorem readByte_writeProgram_outside (p : List Instr) {m : Memory} (h : m.wf = true) {a : Nat} (ha : a + 4 * p.length ≤ m.size)
    {q : Nat} (hq : q < a ∨ a + 4 * p.length ≤ q) : (m.writeProgram a p).readByte q = m.readByte q := by
  induction p generalizing m a with
  | nil => rfl
  | cons i rest ih =>
    simp only [List.length_cons] at ha hq
    rw [Memory.writeProgram, ih (writeWord_wf h a _) (by simp only [size_writeWord]; omega) (by omega),
      readByte_writeWord h (by omega), if_neg (by omega)]

/-- A program that fits has the word of instruction `k` at `4 * k` from its start. -/
theorem wordAt_writeProgram (p : List Instr) {m : Memory} (h : m.wf = true) {a : Nat} (ha : a + 4 * p.length ≤ m.size) (k : Nat)
    (hk : k < p.length) : WordAt (m.writeProgram a p) (a + 4 * k) (encode p[k]) := by
  induction p generalizing m a k with
  | nil => cases hk
  | cons i rest ih =>
    rw [List.length_cons] at ha hk
    have hwf : (m.writeWord a (encode i)).wf = true := writeWord_wf h a _
    have hfit : a + 4 + 4 * rest.length ≤ (m.writeWord a (encode i)).size := by rw [size_writeWord]; omega
    cases k with
    | zero =>
      refine wordAt_iff.2 ⟨by rw [size_writeProgram]; omega, ?_⟩
      have first_kept : ((m.writeWord a (encode i)).writeProgram (a + 4) rest).fetchWord a
          = (m.writeWord a (encode i)).fetchWord a :=
        fetchWord_congr fun q _ hq => readByte_writeProgram_outside rest hwf hfit (.inl hq)
      exact first_kept.trans (fetchWord_writeWord h (by omega) _)
    | succ k =>
      have rest_at := ih hwf hfit k (by omega)
      rwa [show a + 4 + 4 * k = a + 4 * (k + 1) by omega] at rest_at

/-- Settles O53: the words are those `writeProgram` lays down, and it leaves the cleared bytes after them. -/
theorem serializeLaysOutTheProgram : Obligations.SerializeLaysOutTheProgram := by
  unfold Obligations.SerializeLaysOutTheProgram
  intro p m h
  refine ⟨serialize_eq_none, fun hfit => ?_⟩
  have fits : 0 + 4 * p.length ≤ m.clear.size := by rwa [Nat.zero_add]
  have hs := serialize_eq_some hfit
  refine ⟨_, hs, serialize_wf h hs, serialize_size hs, fun k hk => ?_, fun a ha => ?_⟩
  · have := wordAt_writeProgram p (clear_wf h) fits k hk
    rwa [Nat.zero_add] at this
  · rw [readByte_writeProgram_outside p (clear_wf h) fits (.inr (by omega))]
    rfl

/-- Settles O54: the word at the pc is the encoding of instruction `k`, which decodes to it. -/
theorem serializedProgramRuns : Obligations.SerializedProgramRuns := by
  unfold Obligations.SerializedProgramRuns
  rintro p m _ hwf hs s k hk rfl hpc
  obtain ⟨refuses, laysOut⟩ := serializeLaysOutTheProgram p m hwf
  have hfit : 4 * p.length ≤ m.size := by
    by_contra hlt
    rw [refuses (by omega)] at hs
    cases hs
  obtain ⟨m', hs', _, _, words, _⟩ := laysOut hfit
  obtain rfl : s.mem = m' := Option.some.inj (hs.symm.trans hs')
  exact step_of_wordAt (hpc ▸ words k hk) (decode_encode p[k])

end Sys2Proof.Machine
end

section
/-! PROOFS about the codec: the outcomes of decoding (R61), the two bits without a field (R62), the round trip from words to words
(R64), and the round trip from instructions to instructions (R63). -/

namespace Sys2Proof

/-- Settles O2: `decode_encode`, which every field's round trip makes. -/
theorem decodeInvertsEncode : Obligations.DecodeInvertsEncode := by
  unfold Obligations.DecodeInvertsEncode
  exact decode_encode

/-! ## What decoding can answer (R60, R61) -/

section
variable {w : Word}

theorem decodeBody_dataProcessing (h : w.toNat / 2 ^ 26 % 4 = 0) :
    decodeBody w = .ok (.dataProcessing (Opcode.ofCode (w.extractLsb' 21 4)) (w.getLsbD 20) (regOfBits (w.extractLsb' 16 4))
      (regOfBits (w.extractLsb' 12 4)) (decodeOperand w)) := by
  have hclass : (w.extractLsb' 26 2).toNat = 0 := (toNat_field w 26 2).trans h
  simp only [decodeBody, hclass]

theorem decodeBody_branch (h : w.toNat / 2 ^ 26 % 4 = 2) :
    decodeBody w = .ok (.branch (w.getLsbD 25) (w.extractLsb' 1 24)) := by
  have hclass : (w.extractLsb' 26 2).toNat = 2 := (toNat_field w 26 2).trans h
  simp only [decodeBody, hclass]

theorem decodeBody_reserved (h : w.toNat / 2 ^ 26 % 4 = 1 ∨ w.toNat / 2 ^ 26 % 4 = 3) :
    decodeBody w = .error .reservedClass := by
  have hclass : (w.extractLsb' 26 2).toNat = 1 ∨ (w.extractLsb' 26 2).toNat = 3 := by rwa [toNat_field w 26 2]
  obtain hclass | hclass := hclass <;> simp only [decodeBody, hclass]

end

/-- No condition has the code of the condition field exactly when the field is 15 (R51). -/
theorem condOfField_none_iff (w : Word) : Cond.ofCode (w.extractLsb' 28 4) = none ↔ w.toNat / 2 ^ 28 = 15 := by
  have hfield := toNat_field w 28 4
  have hw := w.isLt
  rw [condOfCode_none_iff, ← BitVec.toNat_inj, hfield, BitVec.toNat_ofNat]
  omega

/-- What decoding can answer: the condition's error first, then the class's, and otherwise the instruction of both parts. -/
theorem decode_cases (w : Word) :
    (w.toNat / 2 ^ 28 = 15 ∧ decode w = .error .invalidCondition) ∨
    (w.toNat / 2 ^ 28 ≠ 15 ∧ (w.toNat / 2 ^ 26 % 4 = 1 ∨ w.toNat / 2 ^ 26 % 4 = 3) ∧ decode w = .error .reservedClass) ∨
    (w.toNat / 2 ^ 28 ≠ 15 ∧ (w.toNat / 2 ^ 26 % 4 = 0 ∨ w.toNat / 2 ^ 26 % 4 = 2) ∧
      ∃ c body, Cond.ofCode (w.extractLsb' 28 4) = some c ∧ decodeBody w = .ok body ∧
        decode w = .ok (Instr.ofInstruction ⟨c, body⟩)) := by
  cases hc : Cond.ofCode (w.extractLsb' 28 4) with
  | none => exact .inl ⟨(condOfField_none_iff w).1 hc, by simp [decode, decodeInstruction, hc]⟩
  | some c =>
    have hcond : w.toNat / 2 ^ 28 ≠ 15 := fun h => by simp [(condOfField_none_iff w).2 h] at hc
    have hclasses : (w.toNat / 2 ^ 26 % 4 = 0 ∨ w.toNat / 2 ^ 26 % 4 = 2) ∨
        w.toNat / 2 ^ 26 % 4 = 1 ∨ w.toNat / 2 ^ 26 % 4 = 3 := by
      omega
    obtain hclass | hclass := hclasses
    · obtain ⟨body, hbody⟩ : ∃ body, decodeBody w = .ok body :=
        hclass.elim (fun h => ⟨_, decodeBody_dataProcessing h⟩) fun h => ⟨_, decodeBody_branch h⟩
      exact .inr (.inr ⟨hcond, hclass, c, body, rfl, hbody, by simp [decode, decodeInstruction, hc, hbody]⟩)
    · have hbody := decodeBody_reserved hclass
      exact .inr (.inl ⟨hcond, hclass, by simp [decode, decodeInstruction, hc, hbody]⟩)

/-- Settles O4: the three outcomes exclude each other, as their conditions on the word do. -/
theorem decodeFailsInExactlyTwoCases : Obligations.DecodeFailsInExactlyTwoCases := by
  unfold Obligations.DecodeFailsInExactlyTwoCases
  intro w
  obtain ⟨hcond, hd⟩ | ⟨hcond, hclass, hd⟩ | ⟨hcond, hclass, c, body, _, _, hd⟩ := decode_cases w
  · simp only [hd, Except.error.injEq, reduceCtorEq, exists_false, true_iff, false_iff]
    omega
  · simp only [hd, Except.error.injEq, reduceCtorEq, exists_false, true_iff, false_iff]
    omega
  · simp only [hd, Except.ok.injEq, exists_eq', reduceCtorEq, true_iff, false_iff]
    omega

/-! ## Words with some bits cleared -/

/-- The bits a mask clears and the bits it keeps have no 1 in common. -/
theorem clear_and_keep (w m : Word) : (w &&& ~~~m) &&& (w &&& m) = 0#32 := by
  ext k
  cases hk : m[k] <;> simp [hk]

/-- The bits a mask clears and the bits it keeps make up the word. -/
theorem clear_add_keep (w m : Word) : (w &&& ~~~m) + (w &&& m) = w := by
  rw [BitVec.add_eq_or_of_and_eq_zero _ _ (clear_and_keep w m)]
  ext k
  cases hk : m[k] <;> simp [hk]

theorem toNat_clear_add_keep (w m : Word) : (w &&& ~~~m).toNat + (w &&& m).toNat = w.toNat := by
  rw [← BitVec.toNat_add_of_and_eq_zero (clear_and_keep w m), clear_add_keep]

/-- Clearing bits leaves a word as it is exactly when it has 0 there. -/
theorem clear_eq_self_iff (w m : Word) : w &&& ~~~m = w ↔ w &&& m = 0#32 := by
  have hsum := toNat_clear_add_keep w m
  rw [← BitVec.toNat_inj, ← BitVec.toNat_inj, BitVec.toNat_zero]
  omega

theorem clear_zero (w : Word) : w &&& ~~~0#32 = w := (clear_eq_self_iff w 0#32).2 BitVec.and_zero

theorem xor_and_distrib (x y m : Word) : (x ^^^ y) &&& m = (x &&& m) ^^^ (y &&& m) := by
  ext k
  simp [Bool.and_xor_distrib_right]

/-- Two words that are the same but for bit `k` are equal or differ exactly there. -/
theorem eq_or_eq_flip_of_clear_eq {w w' : Word} {k : Nat}
    (h : w' &&& ~~~BitVec.twoPow 32 k = w &&& ~~~BitVec.twoPow 32 k) : w' = w ∨ w' = w ^^^ BitVec.twoPow 32 k := by
  have hclear : (w' ^^^ w) &&& ~~~BitVec.twoPow 32 k = 0#32 := by rw [xor_and_distrib, h, BitVec.xor_self]
  have hdiff := clear_add_keep (w' ^^^ w) (BitVec.twoPow 32 k)
  rw [hclear, BitVec.zero_add, BitVec.and_twoPow] at hdiff
  split at hdiff
  · exact .inr (by rw [hdiff, BitVec.xor_comm w', ← BitVec.xor_assoc, BitVec.xor_self, BitVec.zero_xor])
  · exact .inl (BitVec.xor_eq_zero_iff.1 hdiff.symm)

/-- A bit as a number is its quotient modulo 2. -/
theorem toNat_getLsbD (w : Word) (k : Nat) : (w.getLsbD k).toNat = w.toNat / 2 ^ k % 2 := Nat.toNat_testBit w.toNat k

/-- One bit of a word, as a number. -/
theorem toNat_and_twoPow (w : Word) {k : Nat} (hk : k < 32) :
    (w &&& BitVec.twoPow 32 k).toNat = w.toNat / 2 ^ k % 2 * 2 ^ k := by
  rw [BitVec.and_twoPow, ← toNat_getLsbD]
  cases w.getLsbD k
  · simp
  · simp [BitVec.toNat_twoPow_of_lt hk]

/-! ## The forms with an ignored bit (R54, R55, R62) -/

theorem isShiftByRegForm_iff (w : Word) :
    isShiftByRegForm w = true ↔ w.toNat / 2 ^ 26 % 4 = 0 ∧ w.getLsbD 25 = false ∧ w.getLsbD 4 = true := by
  simp [isShiftByRegForm, ← BitVec.toNat_inj, toNat_field, and_assoc, -BitVec.extractLsb'_toNat]

theorem isBranchForm_iff (w : Word) : isBranchForm w = true ↔ w.toNat / 2 ^ 26 % 4 = 2 := by
  simp [isBranchForm, ← BitVec.toNat_inj, toNat_field, -BitVec.extractLsb'_toNat]

theorem ignoredBits_of_shiftByReg {w : Word} (h : isShiftByRegForm w = true) : ignoredBits w = BitVec.twoPow 32 7 := by
  simp [ignoredBits, h]
  rfl

theorem ignoredBits_of_branch {w : Word} (h : isBranchForm w = true) : ignoredBits w = BitVec.twoPow 32 0 := by
  have hr : isShiftByRegForm w = false := by
    rw [← Bool.not_eq_true, isShiftByRegForm_iff]
    rw [isBranchForm_iff] at h
    omega
  simp [ignoredBits, h, hr]
  rfl

theorem ignoredBits_of_other {w : Word} (hr : isShiftByRegForm w = false) (hb : isBranchForm w = false) : ignoredBits w = 0#32 := by
  simp [ignoredBits, hr, hb]

/-! ## Encoding a decoded word (R62, R64) -/

section
variable {w : Word}

theorem decodeOperand_immediate (hi : w.getLsbD 25 = true) :
    decodeOperand w = .immediate (w.extractLsb' 8 4) (w.extractLsb' 0 8) := by
  rw [decodeOperand, if_pos hi]

theorem decodeOperand_shiftByReg (hi : w.getLsbD 25 = false) (h4 : w.getLsbD 4 = true) :
    decodeOperand w = .shiftByReg (ShiftType.ofCode (w.extractLsb' 5 2)) (regOfBits (w.extractLsb' 8 4))
      (regOfBits (w.extractLsb' 0 4)) := by
  simp only [decodeOperand, hi, h4, Bool.false_eq_true, if_false, if_true]

theorem decodeOperand_shiftByImm (hi : w.getLsbD 25 = false) (h4 : w.getLsbD 4 = false) :
    decodeOperand w = .shiftByImm (ShiftType.ofCode (w.extractLsb' 5 2)) (w.extractLsb' 7 5)
      (regOfBits (w.extractLsb' 0 4)) := by
  simp only [decodeOperand, hi, h4, Bool.false_eq_true, if_false]

/-- A decoded operand has the word's I bit. -/
theorem encodeOperand_decodeOperand_fst (w : Word) : (encodeOperand (decodeOperand w)).1 = w.getLsbD 25 := by
  unfold decodeOperand
  split
  case isTrue hi => exact hi.symm
  case isFalse hi => split <;> exact (Bool.eq_false_of_not_eq_true hi).symm

/-- A decoded operand has the word's low 12 bits, but for `w[7]` of the by-register form (R53, R54). -/
theorem toNat_encodeOperand_decodeOperand (hclass : w.toNat / 2 ^ 26 % 4 = 0) :
    (encodeOperand (decodeOperand w)).2.toNat + (w &&& ignoredBits w).toNat = w.toNat % 2 ^ 12 := by
  have hbranch : ¬isBranchForm w = true := by
    rw [isBranchForm_iff]
    omega
  have hbit4 := toNat_getLsbD w 4
  by_cases hshift : isShiftByRegForm w = true
  · obtain ⟨_, hi, h4⟩ := (isShiftByRegForm_iff w).1 hshift
    rw [h4, Bool.toNat_true] at hbit4
    rw [decodeOperand_shiftByReg hi h4, ignoredBits_of_shiftByReg hshift, toNat_and_twoPow w (by omega)]
    simp only [encodeOperand, toNat_append_eq, toNat_field, regBits_regOfBits, shiftCode_ofCode, BitVec.toNat_ofNat]
    omega
  · rw [ignoredBits_of_other (Bool.eq_false_of_not_eq_true hshift) (Bool.eq_false_of_not_eq_true hbranch),
      BitVec.and_zero, BitVec.toNat_zero]
    cases hi : w.getLsbD 25 with
    | true =>
      rw [decodeOperand_immediate hi]
      simp only [encodeOperand, toNat_append_eq, toNat_field]
      omega
    | false =>
      have h4 : w.getLsbD 4 = false := by simpa only [isShiftByRegForm_iff, hclass, hi, true_and, Bool.not_eq_true] using hshift
      rw [h4, Bool.toNat_false] at hbit4
      rw [decodeOperand_shiftByImm hi h4]
      simp only [encodeOperand, toNat_append_eq, toNat_field, regBits_regOfBits, shiftCode_ofCode, BitVec.toNat_ofNat]
      omega

end

/-- A decoded word's encoding lacks its ignored bit and nothing else. -/
theorem toNat_encodeInstruction_add_ignored {w : Word} {c : Cond} {body : Body} (hc : Cond.ofCode (w.extractLsb' 28 4) = some c)
    (hclass : w.toNat / 2 ^ 26 % 4 = 0 ∨ w.toNat / 2 ^ 26 % 4 = 2) (hbody : decodeBody w = .ok body) :
    (encodeInstruction ⟨c, body⟩).toNat + (w &&& ignoredBits w).toNat = w.toNat := by
  have hw := w.isLt
  obtain hclass | hclass := hclass
  · obtain rfl := Except.ok.inj ((decodeBody_dataProcessing hclass).symm.trans hbody)
    have hoperand := toNat_encodeOperand_decodeOperand hclass
    rw [toNat_encode_dataProcessing, condCode_of_ofCode hc, encodeOperand_decodeOperand_fst]
    simp only [opcodeCode_ofCode, regBits_regOfBits, toNat_field, toNat_getLsbD]
    omega
  · obtain rfl := Except.ok.inj ((decodeBody_branch hclass).symm.trans hbody)
    rw [toNat_encode_branch, condCode_of_ofCode hc, ignoredBits_of_branch ((isBranchForm_iff w).2 hclass),
      toNat_and_twoPow w (by omega)]
    simp only [toNat_field, toNat_getLsbD]
    omega

/-- Encoding a decoded word clears its ignored bits (R62, R64). -/
theorem encode_of_decode {w : Word} {i : Instr} (h : decode w = .ok i) : encode i = w &&& ~~~ignoredBits w := by
  obtain ⟨_, hd⟩ | ⟨_, _, hd⟩ | ⟨_, hclass, c, body, hc, hbody, hd⟩ := decode_cases w
  · simp [hd] at h
  · simp [hd] at h
  · obtain rfl := Except.ok.inj (hd.symm.trans h)
    have hencode := toNat_encodeInstruction_add_ignored hc hclass hbody
    have hclear := toNat_clear_add_keep w (ignoredBits w)
    rw [encode, toInstruction_ofInstruction, ← BitVec.toNat_inj]
    omega

/-- An encoded word has 0 in its ignored bits. -/
theorem encode_and_ignoredBits (i : Instr) : encode i &&& ignoredBits (encode i) = 0#32 :=
  (clear_eq_self_iff _ _).1 (encode_of_decode (decode_encode i)).symm

theorem ignoredBits_values (w : Word) : ignoredBits w = 0x80#32 ∨ ignoredBits w = 0x01#32 ∨ ignoredBits w = 0#32 := by
  unfold ignoredBits
  split
  · exact .inl rfl
  · split
    · exact .inr (.inl rfl)
    · exact .inr (.inr rfl)

/-- A word's form shows in bits that are ignored in no form, so clearing ignored bits keeps it. -/
theorem ignoredBits_clear {w m : Word} (hm : m = 0x80#32 ∨ m = 0x01#32 ∨ m = 0#32) :
    ignoredBits (w &&& ~~~m) = ignoredBits w := by
  have hall : ∀ x : BitVec 2, x &&& 3#2 = x := by decide
  obtain rfl | rfl | rfl := hm <;>
    simp [ignoredBits, isShiftByRegForm, isBranchForm, BitVec.extractLsb'_and, hall]

/-- A word and the encoding of what it decodes to have the same ignored bits. -/
theorem ignoredBits_encode {w : Word} {i : Instr} (h : decode w = .ok i) : ignoredBits (encode i) = ignoredBits w := by
  rw [encode_of_decode h, ignoredBits_clear (ignoredBits_values w)]

/-- Two words of one instruction are the same but for their ignored bits. -/
theorem clear_eq_of_decode_eq {w w' : Word} {i : Instr} (h : decode w = .ok i) (h' : decode w' = .ok i) :
    w' &&& ~~~ignoredBits w = w &&& ~~~ignoredBits w := by
  rw [← encode_of_decode h, ← ignoredBits_encode h, ignoredBits_encode h', encode_of_decode h']

/-- Settles O3: the encoding is the word with its ignored bits cleared, so two words of one instruction differ in those at most. -/
theorem reencodingClearsOnlyIgnoredBits : Obligations.ReencodingClearsOnlyIgnoredBits := by
  unfold Obligations.ReencodingClearsOnlyIgnoredBits
  intro w i h
  have hencode := encode_of_decode h
  refine ⟨hencode, hencode ▸ clear_eq_self_iff w _, fun w' h' => ?_⟩
  have hsame := clear_eq_of_decode_eq h h'
  cases hshift : isShiftByRegForm w with
  | true =>
    rw [ignoredBits_of_shiftByReg hshift] at hsame
    exact (eq_or_eq_flip_of_clear_eq hsame).imp_right fun hw => .inl ⟨rfl, hw⟩
  | false =>
    cases hbranch : isBranchForm w with
    | true =>
      rw [ignoredBits_of_branch hbranch] at hsame
      exact (eq_or_eq_flip_of_clear_eq hsame).imp_right fun hw => .inr ⟨rfl, hw⟩
    | false =>
      rw [ignoredBits_of_other hshift hbranch] at hsame
      rw [clear_zero, clear_zero] at hsame
      exact .inl hsame

/-! ## The ignored bits (R62) -/

/-- Flipping bits outside a field leaves the field. -/
theorem extractLsb'_flip (w m : Word) {a b : Nat} (h : m.extractLsb' a b = 0#b) :
    (w ^^^ m).extractLsb' a b = w.extractLsb' a b := by rw [BitVec.extractLsb'_xor, h, BitVec.xor_zero]

theorem getLsbD_flip (w m : Word) {k : Nat} (h : m.getLsbD k = false) : (w ^^^ m).getLsbD k = w.getLsbD k := by
  rw [BitVec.getLsbD_xor, h, Bool.xor_false]

/-- Decoding is a function of the condition field and the body. -/
theorem decode_congr {w w' : Word} (hcond : w'.extractLsb' 28 4 = w.extractLsb' 28 4) (hbody : decodeBody w' = decodeBody w) :
    decode w' = decode w := by simp only [decode, decodeInstruction, hcond, hbody]

/-- No field of the by-register shift form holds `w[7]`. -/
theorem decode_flip_of_shiftByReg {w : Word} (h : isShiftByRegForm w = true) : decode (w ^^^ 0x80#32) = decode w := by
  have h' : isShiftByRegForm (w ^^^ 0x80#32) = true := by
    simpa (disch := decide) only [isShiftByRegForm, extractLsb'_flip, getLsbD_flip] using h
  obtain ⟨hclass, hi, h4⟩ := (isShiftByRegForm_iff w).1 h
  obtain ⟨hclass', hi', h4'⟩ := (isShiftByRegForm_iff _).1 h'
  refine decode_congr (extractLsb'_flip w _ rfl) ?_
  rw [decodeBody_dataProcessing hclass, decodeBody_dataProcessing hclass', decodeOperand_shiftByReg hi h4,
    decodeOperand_shiftByReg hi' h4']
  simp (disch := decide) only [extractLsb'_flip, getLsbD_flip]

/-- No field of the Branch form holds `w[0]`. -/
theorem decode_flip_of_branch {w : Word} (h : isBranchForm w = true) : decode (w ^^^ 0x01#32) = decode w := by
  have h' : isBranchForm (w ^^^ 0x01#32) = true := by
    simpa (disch := decide) only [isBranchForm, extractLsb'_flip] using h
  refine decode_congr (extractLsb'_flip w _ rfl) ?_
  rw [decodeBody_branch ((isBranchForm_iff w).1 h), decodeBody_branch ((isBranchForm_iff _).1 h')]
  simp (disch := decide) only [extractLsb'_flip, getLsbD_flip]

/-- An encoded word has 0 in the bit its form ignores. -/
theorem encode_getLsbD_of_ignored {i : Instr} {k : Nat} (h : ignoredBits (encode i) = BitVec.twoPow 32 k) (hk : k < 32) :
    (encode i).getLsbD k = false := by
  have hbit := toNat_and_twoPow (encode i) hk
  rw [← h, encode_and_ignoredBits, ← toNat_getLsbD] at hbit
  simpa using hbit

/-- Settles O5: the flipped bit is in no field that decoding reads, and encoding leaves the ignored bits 0. -/
theorem ignoredBitsDoNotMatter : Obligations.IgnoredBitsDoNotMatter := by
  unfold Obligations.IgnoredBitsDoNotMatter
  exact ⟨fun w => decode_flip_of_shiftByReg, fun w => decode_flip_of_branch, fun i =>
    ⟨fun h => encode_getLsbD_of_ignored (ignoredBits_of_shiftByReg h) (by omega),
      fun h => encode_getLsbD_of_ignored (ignoredBits_of_branch h) (by omega)⟩⟩

end Sys2Proof
end

section
/-! PROOFS about the assembler: what every line becomes (R74, R83, R86), how pass 1 binds a label (R73), that a branch to a label
reaches it (R82), and how mnemonics resolve (R76). Beside them, that the fields an opcode does not use have no effect (R65). -/

namespace Sys2Proof.Machine

open Sys2Proof.Claim

/-! ## The second operand (R86, R87) -/

/-- The operand is not an immediate with a rotation. -/
def Unrotated : Operand → Prop
  | .immediate rotate _ => rotate = 0
  | .shiftByImm _ _ _ => True
  | .shiftByReg _ _ _ => True

theorem takeAmount_unrotated {type : ShiftType} {rm : Reg} {line : Span} {ts rest : List Token} {o : Operand}
    (h : takeAmount type rm line ts = .ok (o, rest)) : Unrotated o := by
  unfold takeAmount at h
  split at h
  · cases h
  · split at h
    all_goals
      split at h
      · cases h
        trivial
      · cases h

theorem takeShift_unrotated {rm : Reg} {line : Span} {ts rest : List Token} {o : Operand}
    (h : takeShift rm line ts = .ok (o, rest)) : Unrotated o := by
  unfold takeShift at h
  split at h
  · cases h
    trivial
  · split at h
    · exact takeAmount_unrotated h
    · cases h
      trivial

/-- A literal gets rotate 0 (R86), and a shifted register holds no immediate. -/
theorem takeOperand2_unrotated {line : Span} {ts rest : List Token} {o : Operand}
    (h : takeOperand2 line ts = .ok (o, rest)) : Unrotated o := by
  unfold takeOperand2 at h
  split at h
  · cases h
  · split at h
    case h_1 =>
      split at h
      · exact takeShift_unrotated h
      · cases h
    all_goals
      split at h
      · cases h
        rfl
      · cases h

theorem lastOperand2_unrotated {line : Span} {ts : List Token} {o : Operand} (h : lastOperand2 line ts = .ok o) :
    Unrotated o := by
  unfold lastOperand2 at h
  split at h
  · cases h
  next hoperand =>
    split at h <;> cases h
    exact takeOperand2_unrotated hoperand

/-! ## What a line becomes (R74, R83) -/

/-- A body the assembler can write: S is 1 (R83), and no immediate is rotated (R86). -/
def BodyAssembled : Body → Prop
  | .dataProcessing _ s _ _ operand => s = true ∧ Unrotated operand
  | .branch _ _ => True

theorem exists_of_map_eq_ok {α β : Type} {f : α → β} {x : Assembled α} {b : β} (h : x.map f = .ok b) :
    ∃ a, x = .ok a ∧ f a = b := by
  cases x with
  | ok a => exact ⟨a, rfl, Except.ok.inj h⟩
  | error e => cases h

/-- The end of every operand shape: a last operand and S set. -/
theorem bodyAssembled_of_lastOperand2 {op : Opcode} {rn rd : Reg} {line : Span} {ts : List Token} {body : Body}
    (h : (lastOperand2 line ts).map (.dataProcessing op true rn rd) = .ok body) : BodyAssembled body := by
  obtain ⟨o, ho, rfl⟩ := exists_of_map_eq_ok h
  exact ⟨rfl, lastOperand2_unrotated ho⟩

theorem assembleDp_bodyAssembled {op : Opcode} {line : Span} {ts : List Token} {body : Body}
    (h : assembleDp op line ts = .ok body) : BodyAssembled body := by
  unfold assembleDp at h
  split at h
  case h_1 =>
    split at h
    · cases h
    · split at h
      · cases h
      · exact bodyAssembled_of_lastOperand2 h
  all_goals
    split at h
    · cases h
    · exact bodyAssembled_of_lastOperand2 h

theorem assembleBranch_bodyAssembled {link : Bool} {line : Span} {cur : Nat} {labels : Labels} {ts : List Token} {body : Body}
    (h : assembleBranch link line cur labels ts = .ok body) : BodyAssembled body := by
  unfold assembleBranch at h
  split at h
  · cases h
  · split at h
    all_goals
      split at h
      · obtain ⟨_, _, rfl⟩ := exists_of_map_eq_ok h
        trivial
      · cases h

/-- An instruction line becomes an instruction whose body is one the assembler can write. -/
theorem assembleOne_bodyAssembled {mnemonic : Text} {line : Span} {operands : List Token} {cur : Nat} {labels : Labels} {i : Instr}
    (h : assembleOne mnemonic line operands cur labels = .ok i) : BodyAssembled i.toInstruction.body := by
  unfold assembleOne at h
  split at h
  · cases h
  · obtain ⟨body, hbody, rfl⟩ := exists_of_map_eq_ok h
    rw [toInstruction_ofInstruction]
    exact assembleDp_bodyAssembled hbody
  · obtain ⟨body, hbody, rfl⟩ := exists_of_map_eq_ok h
    rw [toInstruction_ofInstruction]
    exact assembleBranch_bodyAssembled hbody

/-! ## The two passes (R73, R74) -/

/-- Pass 2 makes one instruction of each instruction line, whatever the address and the labels. -/
theorem pass2_shape {lines : List Line} {addr : Nat} {labels : Labels} {p : List Instr} (h : pass2 lines addr labels = .ok p) :
    p.length = (instructionLines lines).length ∧ ∀ i ∈ p, BodyAssembled i.toInstruction.body := by
  induction lines generalizing addr p with
  | nil =>
    cases h
    simp [instructionLines]
  | cons l rest ih =>
    cases l with
    | blank => exact ih h
    | labelDef name => exact ih h
    | instruction mnemonic line operands =>
      unfold pass2 at h
      split at h
      · cases h
      next i hi =>
        obtain ⟨q, hq, rfl⟩ := exists_of_map_eq_ok h
        obtain ⟨hlength, hbodies⟩ := ih hq
        refine ⟨by simpa [instructionLines] using hlength, ?_⟩
        rintro j (_ | ⟨_, hj⟩)
        · exact assembleOne_bodyAssembled hi
        · exact hbodies j hj

/-- Settles O56: S is 1 in every body the assembler can write. -/
theorem assemblerSetsSInEveryInstruction : Obligations.AssemblerSetsSInEveryInstruction := by
  unfold Obligations.AssemblerSetsSInEveryInstruction
  intro lines p h i hi
  obtain ⟨_, hbodies⟩ := pass2_shape h
  have hbody := hbodies i hi
  unfold sBit
  split
  next hb =>
    rw [hb] at hbody
    obtain ⟨rfl, _⟩ := hbody
    exact .inl rfl
  · exact .inr rfl

/-- Settles O57: pass 2 keeps the count, and no body the assembler can write has a rotated immediate. -/
theorem assembledProgramShape : Obligations.AssembledProgramShape := by
  unfold Obligations.AssembledProgramShape
  intro lines p h
  obtain ⟨hlength, hbodies⟩ := pass2_shape h
  refine ⟨hlength, fun i hi => ?_⟩
  have hbody := hbodies i hi
  unfold rotateField
  split
  next hb =>
    rw [hb] at hbody
    obtain ⟨_, hrotate⟩ := hbody
    exact .inl (congrArg some hrotate)
  all_goals exact .inr rfl

/-- Pass 1 over two sources in a row: the second begins where the first's instructions end. -/
theorem pass1_append (before after : List Line) (addr : Nat) (labels : Labels) :
    pass1 (before ++ after) addr labels =
      pass1 after (addr + 4 * (instructionLines before).length) (pass1 before addr labels) := by
  induction before generalizing addr labels with
  | nil => rfl
  | cons l rest ih =>
    cases l with
    | blank => exact ih addr labels
    | labelDef name => exact ih addr ((name, addr) :: labels)
    | instruction mnemonic line operands =>
      refine (ih (addr + 4) labels).trans ?_
      rw [pass1, show addr + 4 + 4 * (instructionLines rest).length
        = addr + 4 * (instructionLines (.instruction mnemonic line operands :: rest)).length by
          simp [instructionLines]
          omega]

/-- A source that does not define a name leaves its binding as it was. -/
theorem lookup_pass1_of_not_mem {name : Text} {lines : List Line} (h : Line.labelDef name ∉ lines) (addr : Nat) (labels : Labels) :
    (pass1 lines addr labels).lookup name = labels.lookup name := by
  induction lines generalizing addr labels with
  | nil => rfl
  | cons l rest ih =>
    obtain ⟨hl, hrest⟩ := not_or.1 (List.mem_cons.not.1 h)
    cases l with
    | blank => exact ih hrest addr labels
    | labelDef other =>
      have hne : (name == other) = false := by simpa using hl
      exact (ih hrest addr ((other, addr) :: labels)).trans (by rw [List.lookup_cons, hne])
    | instruction mnemonic line operands => exact ih hrest (addr + 4) labels

/-- Settles O58: the definition is the latest in the label table when pass 1 reaches it, and nothing after it hides it. -/
theorem laterLabelDefinitionWins : Obligations.LaterLabelDefinitionWins := by
  unfold Obligations.LaterLabelDefinitionWins
  intro before after name h
  rw [pass1_append, pass1, lookup_pass1_of_not_mem h, List.lookup_cons_self, Nat.zero_add]

/-! ## Branches to labels (R82, R146) -/

/-- The offset is the distance in words from the word after the branch, cut to 24 bits. -/
theorem labelOffset_eq (label cur : Nat) : labelOffset label cur = BitVec.ofInt 24 ((label / 4 : Int) - (cur / 4 + 1)) := by
  apply BitVec.eq_of_toNat_eq
  rw [labelOffset, toNat_field]
  simp [BitVec.toNat_sub, BitVec.toNat_ofInt]
  omega

/-- A distance within the field's reach is the offset's signed value. -/
theorem toInt_labelOffset {label cur : Nat} (hlo : -(2 ^ 23 : Int) ≤ (label / 4 : Int) - (cur / 4 + 1))
    (hhi : (label / 4 : Int) - (cur / 4 + 1) < 2 ^ 23) :
    (labelOffset label cur).toInt = (label / 4 : Int) - (cur / 4 + 1) := by
  rw [labelOffset_eq, BitVec.toInt_ofInt]
  exact Int.bmod_eq_of_le (by simpa using hlo) (by omega)

/-- Settles O55: within the field's reach the offset is the exact distance, so the target is the label. -/
theorem assembledBranchReachesItsLabel : Obligations.AssembledBranchReachesItsLabel := by
  unfold Obligations.AssembledBranchReachesItsLabel
  intro label cur hlabel hcur hlabelLt hcurLt hlo hhi
  rw [branchTarget_eq, toInt_labelOffset hlo hhi, BitVec.toNat_ofNat, ← BitVec.ofInt_natCast]
  congr 1
  omega

/-! ## Mnemonics (R76) -/

/-- Settles O59: the worked spellings are closed terms. -/
theorem mnemonicsResolve : Obligations.MnemonicsResolve := by
  unfold Obligations.MnemonicsResolve
  decide

/-! ## Fields without effect (R65) -/

/-- Instructions of one condition whose bodies have one effect are executed alike. -/
theorem exec_ofInstruction_congr {c : Cond} {body body' : Body} {s : State} (h : bodyEffect body s = bodyEffect body' s) :
    exec (Instr.ofInstruction ⟨c, body⟩) s = exec (Instr.ofInstruction ⟨c, body'⟩) s := by
  simp only [exec_eq_gated, Instr.cond, toInstruction_ofInstruction, State.gated, h]

/-- Encoding keeps different Instruction values apart. -/
theorem encode_ofInstruction_injective : Function.Injective fun i => encode (Instr.ofInstruction i) := by
  intro i j h
  have hinstr : Instr.ofInstruction i = Instr.ofInstruction j :=
    Except.ok.inj (((decode_encode _).symm.trans (congrArg decode h)).trans (decode_encode _))
  simpa using congrArg Instr.toInstruction hinstr

/-- Settles O35: MOV and MVN do not read Rn, the compares do not write Rd, and the encoding is injective. -/
theorem unusedFieldsHaveNoEffect : Obligations.UnusedFieldsHaveNoEffect := by
  unfold Obligations.UnusedFieldsHaveNoEffect
  intro s c sb rn rd r o
  refine ⟨fun op hop => exec_ofInstruction_congr ?_, fun op hop => exec_ofInstruction_congr ?_, fun op hne h => hne ?_,
    fun op hne h => hne ?_⟩
  · obtain rfl | rfl := hop <;> rfl
  · obtain rfl | rfl | rfl | rfl := hop <;> rfl
  · simpa using encode_ofInstruction_injective h
  · simpa using encode_ofInstruction_injective h

end Sys2Proof.Machine
end

section
/-! PROOFS about the execution cycle (spec/40_execution_cycle.md): the conditions and the gate (R103, R104), that a step runs the
instruction at the pc (R105), and that the ports of R100 are the step and keep their limits. -/

namespace Sys2Proof.Machine

/-! ## The conditions and the gate (R103, R104) -/

/-- Settles O7: each clause is `condHolds` at its condition, read as a proposition. -/
theorem conditionPredicates : Obligations.ConditionPredicates := by
  unfold Obligations.ConditionPredicates
  intro f
  simp [condHolds]

/-- Settles O8: behind a false condition every instruction is the generic advance, which writes the pc alone. -/
theorem falseConditionOnlyAdvances : Obligations.FalseConditionOnlyAdvances := by
  unfold Obligations.FalseConditionOnlyAdvances
  intro i s hc
  exact ⟨s.advance, exec_of_not_holds i s hc, pc_advance s, fun q hq => x_advance_ne s hq, advance_flags s,
    sameMemory_of_mem_eq (advance_mem s)⟩

/-! ## The instruction at the pc (R105) -/

/-- Settles O39: the word at the pc is the one a fetch reads, and the step runs what it decodes to. -/
theorem stepRunsTheDecodedInstruction : Obligations.StepRunsTheDecodedInstruction := by
  unfold Obligations.StepRunsTheDecodedInstruction
  intro s w i hw hd
  exact step_of_wordAt hw hd

/-! ## What the ports show (R100) -/

theorem ports_of_error {s : State} {e : Fault} (h : s.fetchInstr = .error e) :
    ports s = idlePorts s s.pc (BitVec.ofNat 2 e.code) := by
  simp [ports, h]

theorem ports_of_holds {s : State} {i : Instr} (h : s.fetchInstr = .ok i) (hc : condHolds i.cond s.flags = true) :
    ports s = bodyPorts s i.toInstruction.body := by
  simp [ports, h, hc]

theorem ports_of_not_holds {s : State} {i : Instr} (h : s.fetchInstr = .ok i) (hc : condHolds i.cond s.flags = false) :
    ports s = idlePorts s (s.pc + 4) 0 := by
  simp [ports, h, hc]

@[simp] theorem bodyPorts_err (s : State) (body : Body) : (bodyPorts s body).err = 0 := by cases body <;> rfl

@[simp] theorem bodyPorts_fetchAddr (s : State) (body : Body) : (bodyPorts s body).fetchAddr = s.pc := by cases body <;> rfl

/-- A fetched instruction shows no error, whether its condition holds or not. -/
theorem ports_err_of_ok {s : State} {i : Instr} (h : s.fetchInstr = .ok i) : (ports s).err = 0 := by
  cases hc : condHolds i.cond s.flags with
  | true => rw [ports_of_holds h hc, bodyPorts_err]
  | false => rw [ports_of_not_holds h hc]; rfl

/-! ## The commit is the effect of the instruction (R107, R120) -/

/-- Of two writes to one register the later counts. -/
theorem setX_setX_same (s : State) (r : Reg) (v w : Word) : (s.setX r v).setX r w = s.setX r w := by
  simp [State.setX]

/-- With no write enabled the commit moves the pc alone. -/
theorem commit_idlePorts (s : State) (a : Word) (err : BitVec 2) : (idlePorts s a err).commit s = s.setPc a := rfl

/-- The commit of the ports of an opcode that writes Rd. When Rd is 15 the ports show the result in `pc_next` alone, and
`writeResult` writes R15 twice (D14). -/
theorem commit_bodyPorts_writesRd {op : Opcode} (hw : writesRd op = true) (sb : Bool) (rn rd : Reg) (operand : Operand)
    (s : State) :
    (bodyPorts s (.dataProcessing op sb rn rd operand)).commit s = s.writeResult rd (dpOut op rn operand s) := by
  by_cases hrd : rd = Reg.pc
  · subst hrd
    have hlast (f : Flags) (v w : Word) : ((s.setX Reg.pc v).setFlags f).setPc w = (s.setFlags f).setPc w :=
      setX_setX_same (s.setFlags f) Reg.pc v w
    rw [State.writeResult, State.advance, hlast]
    simp [bodyPorts, Ports.commit, hw, State.pc]
  · simp [bodyPorts, Ports.commit, State.writeResult, State.advance, hw, hrd, pc_setX_ne s rd _ hrd]

/-- Committing the ports of a body is its effect: ExecDP and ExecBranch agree with the meanings behind `exec`. -/
theorem commit_bodyPorts (s : State) (body : Body) : (bodyPorts s body).commit s = bodyEffect body s := by
  cases body with
  | dataProcessing op sb rn rd operand =>
    cases hw : writesRd op with
    | true => simp only [commit_bodyPorts_writesRd hw, bodyEffect, hw, if_true]
    | false => simp [bodyPorts, Ports.commit, bodyEffect, State.compareResult, State.advance, hw]
  | branch link offset => cases link <;> rfl

/-- A fetched instruction answers the state the ports commit. -/
theorem exec_eq_commit {s : State} {i : Instr} (h : s.fetchInstr = .ok i) : exec i s = .next ((ports s).commit s) := by
  cases hc : condHolds i.cond s.flags with
  | true => rw [ports_of_holds h hc, commit_bodyPorts, exec_of_holds i s hc]
  | false => rw [ports_of_not_holds h hc, commit_idlePorts, exec_of_not_holds i s hc]; rfl

/-! ## The ports are the step (R109) -/

/-- The error of a failed fetch records the pc, and the fetched word where there is one (R181, D34). -/
theorem fetchInstr_error_cases {s : State} {e : Fault} (h : s.fetchInstr = .error e) :
    e = .fetchError s.pc ∨ e = .invalidCondition s.pc (s.mem.fetchWord s.pc.toNat) ∨
      e = .reservedClass s.pc (s.mem.fetchWord s.pc.toNat) := by
  unfold State.fetchInstr at h
  split at h
  · split at h
    case h_1 => cases h
    case h_2 d hd =>
      cases h
      cases d with
      | invalidCondition => exact .inr (.inl rfl)
      | reservedClass => exact .inr (.inr rfl)
  · cases h
    exact .inl rfl

/-- The error read off the ports is the one the fetch reports: its code names it, and the ports hold what it records. -/
theorem stepByPorts_of_error {s : State} {e : Fault} (h : s.fetchInstr = .error e) : stepByPorts s = .fault e := by
  unfold stepByPorts
  rw [ports_of_error h]
  obtain rfl | rfl | rfl := fetchInstr_error_cases h <;> rfl

theorem stepByPorts_of_ok {s : State} {i : Instr} (h : s.fetchInstr = .ok i) :
    stepByPorts s = .next ((ports s).commit s) := by
  unfold stepByPorts
  rw [ports_err_of_ok h]
  rfl

/-- Settles O47: a fetched instruction answers what the ports commit, and a failed fetch what `err` names. -/
theorem portsPerformTheStep : Obligations.PortsPerformTheStep := by
  unfold Obligations.PortsPerformTheStep
  intro s
  obtain ⟨i, hi, hstep⟩ | ⟨e, he, hstep⟩ := step_cases s
  · rw [hstep, stepByPorts_of_ok hi, exec_eq_commit hi]
  · rw [hstep, stepByPorts_of_error he]

/-! ## The limits of the ports (R100, R108) -/

/-- What R100 allows of the read, write and fetch ports at a state. -/
structure Ports.WithinLimits (p : Ports) (s : State) : Prop where
  atMostThreeReads : p.rfRd.length ≤ 3
  readsHold : ∀ q ∈ p.rfRd, q.2 = s.x q.1
  writeNotPc : ∀ r v, p.rfWr = some (r, v) → r ≠ Reg.pc
  fetchAddr : p.fetchAddr = s.pc

theorem idlePorts_withinLimits (s : State) (a : Word) (err : BitVec 2) : (idlePorts s a err).WithinLimits s where
  atMostThreeReads := Nat.zero_le 3
  readsHold := by simp [idlePorts]
  writeNotPc := by simp [idlePorts]
  fetchAddr := rfl

theorem operandSources_length_le (o : Operand) : (Operand.sources o).length ≤ 2 := by cases o <;> simp [Operand.sources]

/-- A body reads Rn, Rm and Rs at most (R17). -/
theorem bodySources_length_le (body : Body) : (Body.sources body).length ≤ 3 := by
  cases body with
  | dataProcessing op sb rn rd operand =>
    have hoperand := operandSources_length_le operand
    cases hr : readsRn op <;> simp [Body.sources, hr] <;> omega
  | branch link offset => simp [Body.sources]

/-- The reads a body's ports show are its sources, with the values they hold. -/
theorem bodyPorts_rfRd (s : State) (body : Body) : (bodyPorts s body).rfRd = (Body.sources body).map fun r => (r, s.x r) := by
  cases body <;> rfl

theorem bodyPorts_withinLimits (s : State) (body : Body) : (bodyPorts s body).WithinLimits s where
  atMostThreeReads := by
    rw [bodyPorts_rfRd, List.length_map]
    exact bodySources_length_le body
  readsHold := by simp [bodyPorts_rfRd]
  writeNotPc r v h := by
    cases body with
    | dataProcessing op sb rn rd operand =>
      obtain ⟨⟨-, hrd⟩, rfl, -⟩ : (writesRd op = true ∧ rd ≠ Reg.pc) ∧ rd = r ∧ (dpOut op rn operand s).result = v := by
        simpa [bodyPorts] using h
      exact hrd
    | branch link offset =>
      obtain ⟨-, rfl, -⟩ : link = true ∧ Reg.lr = r ∧ linkValue s.pc = v := by simpa [bodyPorts] using h
      decide
  fetchAddr := bodyPorts_fetchAddr s body

theorem ports_withinLimits (s : State) : (ports s).WithinLimits s := by
  unfold ports
  split
  · exact idlePorts_withinLimits s _ _
  · split
    · exact bodyPorts_withinLimits s _
    · exact idlePorts_withinLimits s _ _

/-- The codes of R180 fit in `err`, and none of them is `none`. -/
theorem faultCode_ne_zero (e : Fault) : BitVec.ofNat 2 e.code ≠ 0 := by cases e <;> simp [Fault.code]

theorem ports_err_of_error {s : State} {e : Fault} (h : s.fetchInstr = .error e) : (ports s).err ≠ 0 := by
  rw [ports_of_error h]
  exact faultCode_ne_zero e

/-- `err` is none exactly when the step answers a next state. -/
theorem ports_err_eq_zero_iff (s : State) : (ports s).err = 0 ↔ s.stepsSafely := by
  obtain ⟨i, hi, hstep⟩ | ⟨e, he, hstep⟩ := step_cases s
  · exact iff_of_true (ports_err_of_ok hi) ⟨_, hstep.trans (exec_eq_commit hi)⟩
  · refine iff_of_false (ports_err_of_error he) ?_
    rintro ⟨t, ht⟩
    rw [hstep] at ht
    cases ht

/-- On an error the ports are idle and the pc stays (R108). -/
theorem ports_of_err_ne_zero {s : State} (h : (ports s).err ≠ 0) : ports s = idlePorts s s.pc (ports s).err := by
  cases hf : s.fetchInstr with
  | ok i => exact absurd (ports_err_of_ok hf) h
  | error e => rw [ports_of_error hf]; rfl

/-- Settles O48: every arm of `ports` is within the limits, and on an error the ports are idle. -/
theorem portsAreWithinTheirLimits : Obligations.PortsAreWithinTheirLimits := by
  unfold Obligations.PortsAreWithinTheirLimits
  intro s
  obtain ⟨hlength, hreads, hwrite, haddr⟩ := ports_withinLimits s
  refine ⟨hlength, hreads, hwrite, haddr, fun herr => ?_, ports_err_eq_zero_iff s⟩
  rw [ports_of_err_ne_zero herr]
  exact ⟨rfl, rfl, rfl⟩

end Sys2Proof.Machine
end

section
/-! PROOFS about data processing (spec/41_data_processing.md): the operands and the shift unit (R122 to R124), the arithmetic helpers
(R125), the sixteen opcodes in their three forms (R128 to R143), and what pairs of them compute. -/

namespace Sys2Proof.Machine

open Sys2Proof.Claim

/-! ## The shift unit (R124) -/

/-- The guard of the shift unit agrees with the plain shift: 32 places and more leave nothing (D12). -/
theorem shift_logicalLeft_eq (v : Word) (n : Nat) : shift .logicalLeft v n = v <<< n := by
  rw [shift_logicalLeft]
  split
  · rfl
  next h => exact (BitVec.shiftLeft_eq_zero (Nat.le_of_not_lt h)).symm

theorem shift_logicalRight_eq (v : Word) (n : Nat) : shift .logicalRight v n = v >>> n := by
  rw [shift_logicalRight]
  split
  · rfl
  next h => exact (BitVec.ushiftRight_eq_zero (Nat.le_of_not_lt h)).symm

/-- 32 places and more leave copies of the sign bit. -/
theorem sshiftRight_of_le (v : Word) {n : Nat} (h : 32 ≤ n) :
    v.sshiftRight n = if v.msb then 0xFFFFFFFF#32 else 0x00000000#32 := by
  cases hm : v.msb with
  | false => rw [BitVec.sshiftRight_eq_of_msb_false hm, BitVec.ushiftRight_eq_zero h]; rfl
  | true => rw [BitVec.sshiftRight_eq_of_msb_true hm, BitVec.ushiftRight_eq_zero h]; rfl

theorem shift_arithmeticRight_eq (v : Word) (n : Nat) : shift .arithmeticRight v n = v.sshiftRight n := by
  rw [shift_arithmeticRight]
  split
  · rfl
  next h => exact (sshiftRight_of_le v (Nat.le_of_not_lt h)).symm

theorem getLsbD_shift_rotateRight (v : Word) (n : Nat) {k : Nat} (hk : k < 32) :
    (shift .rotateRight v n).getLsbD k = v.getLsbD ((k + n) % 32) := by
  rw [shift_rotateRight, BitVec.getLsbD_rotateRight]
  cases hw : decide (k < 32 - n % 32 % 32) with
  | true =>
    simp only [decide_eq_true_eq] at hw
    rw [cond_true]
    congr 1
    omega
  | false =>
    simp only [decide_eq_false_iff_not] at hw
    rw [cond_false, decide_eq_true hk, Bool.true_and]
    congr 1
    omega

/-- A shift by nothing changes nothing, whatever its type. -/
theorem shift_zero (type : ShiftType) (v : Word) : shift type v 0 = v := by
  cases type with
  | logicalLeft => exact shift_logicalLeft_zero v
  | logicalRight => rw [shift_logicalRight_eq]; exact BitVec.ushiftRight_zero v
  | arithmeticRight => rw [shift_arithmeticRight_eq]; exact BitVec.sshiftRight_zero
  | rotateRight =>
    apply BitVec.eq_of_getLsbD_eq
    intro k hk
    rw [getLsbD_shift_rotateRight v 0 hk, Nat.add_zero, Nat.mod_eq_of_lt hk]

/-- Settles O10: each type of shift is a shift of the library whose value is known, for amounts of 32 and more too. -/
theorem shiftUnitIsExact : Obligations.ShiftUnitIsExact := by
  unfold Obligations.ShiftUnitIsExact
  intro v n
  refine ⟨?_, ?_, ?_, fun k hk => getLsbD_shift_rotateRight v n hk, fun hn => ⟨?_, ?_, ?_⟩, fun type => shift_zero type v⟩
  · rw [shift_logicalLeft_eq, BitVec.toNat_shiftLeft, Nat.shiftLeft_eq]
  · rw [shift_logicalRight_eq, BitVec.toNat_ushiftRight, Nat.shiftRight_eq_div_pow]
  · rw [shift_arithmeticRight_eq, BitVec.toInt_sshiftRight, Int.shiftRight_eq_div_pow]
    simp
  · exact (shift_logicalLeft_eq v n).trans (BitVec.shiftLeft_eq_zero hn)
  · exact (shift_logicalRight_eq v n).trans (BitVec.ushiftRight_eq_zero hn)
  · rw [shift_arithmeticRight_eq, sshiftRight_of_le v hn]
    rfl

/-! ## The operands (R122, R123) -/

/-- An 8-bit value moved by at most 15 places stays below bit 23. -/
theorem immediate_mul_le (rotate : BitVec 4) (value : BitVec 8) : value.toNat * 2 ^ rotate.toNat ≤ 0x007F8000 := by
  have hrotate := rotate.isLt
  have hvalue := value.isLt
  calc value.toNat * 2 ^ rotate.toNat
    _ ≤ 255 * 2 ^ 15 := Nat.mul_le_mul (by omega) (Nat.pow_le_pow_right (by omega) (by omega))
    _ = 0x007F8000 := rfl

/-- No bit of the value wraps, so the rotation is a multiplication (R123). -/
theorem toNat_immOperand (rotate : BitVec 4) (value : BitVec 8) :
    (immOperand rotate value).toNat = value.toNat * 2 ^ rotate.toNat := by
  have hrotate := rotate.isLt
  have hle := immediate_mul_le rotate value
  have hwrapped : value.toNat / 2 ^ (32 - rotate.toNat) = 0 :=
    Nat.div_eq_of_lt (Nat.lt_of_lt_of_le value.isLt (Nat.pow_le_pow_right (by omega) (by omega)))
  have hvalue : (value.setWidth 32).toNat = value.toNat := BitVec.toNat_setWidth_of_le (by omega)
  rw [immOperand_eq, BitVec.toNat_rotateLeft, Nat.mod_eq_of_lt (by omega : rotate.toNat < 32), hvalue, Nat.shiftRight_eq_div_pow,
    hwrapped, Nat.or_zero, Nat.shiftLeft_eq]
  omega

/-- Settles O9: the value is the product, and its bound leaves the bits from 23 on clear. -/
theorem immediateOperandRotatesLeft : Obligations.ImmediateOperandRotatesLeft := by
  unfold Obligations.ImmediateOperandRotatesLeft
  intro rotate value
  have hle : (immOperand rotate value).toNat ≤ 0x007F8000 := toNat_immOperand rotate value ▸ immediate_mul_le rotate value
  refine ⟨immOperand_eq rotate value, toNat_immOperand rotate value, BitVec.le_def.2 hle, fun k hk => ?_⟩
  refine Nat.testBit_lt_two_pow (Nat.lt_of_lt_of_le (Nat.lt_of_le_of_lt hle ?_) (Nat.pow_le_pow_right (by omega) hk))
  omega

/-- Settles O11: both amounts are the ones the operand is defined by. -/
theorem registerOperandAmount : Obligations.RegisterOperandAmount := by
  unfold Obligations.RegisterOperandAmount
  intro s type amount rs rm
  exact ⟨rfl, by rw [operand2, shiftRegOperand, regShiftAmount_eq]⟩

/-! ## The arithmetic helpers (R125) -/

theorem outOfRange_eq_true_iff (t : Int) : outOfRange t = true ↔ t < -(2 ^ 31) ∨ 2 ^ 31 ≤ t := decide_eq_true_iff

theorem signedOverflow_eq_outOfRange (t : Int) : signedOverflow t = outOfRange t := by
  rw [Bool.eq_iff_iff, signedOverflow_iff, outOfRange_eq_true_iff]

theorem flagNat_decide (p : Prop) [Decidable p] : flagNat (decide p) = if p then 1 else 0 := by simp [flagNat]

theorem flagNat_not (b : Bool) : flagNat (!b) = 1 - flagNat b := by cases b <;> rfl

theorem flagNat_le_one (b : Bool) : flagNat b ≤ 1 := by cases b <;> decide

theorem aluOut_eq {o : AluOut} {r : Word} {c v : Bool} (hr : o.result = r) (hc : o.carry = c) (hv : o.overflow = v) :
    o = ⟨r, c, v⟩ := by
  subst hr hc hv
  rfl

/-- The adder in the words of the spec: sum, unsigned overflow, signed overflow. -/
theorem addWithCarry_eq (a b : Word) (cin : Bool) :
    addWithCarry a b cin = ⟨a + b + BitVec.ofNat 32 (flagNat cin), decide (2 ^ 32 ≤ a.toNat + b.toNat + flagNat cin),
      outOfRange (a.toInt + b.toInt + flagNat cin)⟩ := by
  have hv : (addWithCarry a b cin).overflow = outOfRange (a.toInt + b.toInt + flagNat cin) := by
    rw [addWithCarry_overflow, signedOverflow_eq_outOfRange]
    cases cin <;> rfl
  exact aluOut_eq (addWithCarry_result a b cin) (addWithCarry_carry a b cin) hv

/-- The subtractor in the words of the spec: difference, no-borrow, signed overflow. -/
theorem subWithBorrow_eq (a b : Word) (cin : Bool) :
    subWithBorrow a b cin = ⟨a - b + BitVec.ofNat 32 (flagNat cin) - 1, decide (b.toNat + flagNat (!cin) ≤ a.toNat),
      outOfRange (a.toInt - b.toInt - flagNat (!cin))⟩ := by
  have hc : (subWithBorrow a b cin).carry = decide (b.toNat + flagNat (!cin) ≤ a.toNat) := by
    rw [subWithBorrow_carry]
    cases cin <;> rfl
  have hv : (subWithBorrow a b cin).overflow = outOfRange (a.toInt - b.toInt - flagNat (!cin)) := by
    rw [subWithBorrow_overflow, signedOverflow_eq_outOfRange]
    cases cin <;> rfl
  exact aluOut_eq (subWithBorrow_result a b cin) hc hv

/-- Without a carry in, the adder adds its operands. -/
theorem addWithCarry_false (a b : Word) :
    addWithCarry a b false = ⟨a + b, decide (2 ^ 32 ≤ a.toNat + b.toNat), outOfRange (a.toInt + b.toInt)⟩ := by
  simp [addWithCarry_eq, flagNat]

/-- Without a borrow in, the subtractor subtracts its operands. -/
theorem subWithBorrow_true (a b : Word) :
    subWithBorrow a b true = ⟨a - b, decide (b.toNat ≤ a.toNat), outOfRange (a.toInt - b.toInt)⟩ := by
  simp [subWithBorrow_eq, flagNat]

/-- A value is in range exactly when a word can hold it as it is. -/
theorem outOfRange_eq_false_iff (t : Int) : outOfRange t = false ↔ t.bmod (2 ^ 32) = t := by
  rw [outOfRange, decide_eq_false_iff_not, Int.bmod_eq_iff (by omega)]
  omega

theorem toInt_ofNat_flagNat (b : Bool) : (BitVec.ofNat 32 (flagNat b)).toInt = flagNat b := by cases b <;> rfl

/-- Adding the carry and taking 1 off is taking the borrow off. -/
theorem sub_add_carry_sub_one (a b : Word) (cin : Bool) :
    a - b + BitVec.ofNat 32 (flagNat cin) - 1 = a - b - BitVec.ofNat 32 (flagNat (!cin)) := by
  cases cin <;> simp [flagNat]

theorem toInt_addWithCarry (a b : Word) (cin : Bool) :
    (addWithCarry a b cin).result.toInt = (a.toInt + b.toInt + flagNat cin).bmod (2 ^ 32) := by
  rw [addWithCarry_eq, BitVec.toInt_add, BitVec.toInt_add, toInt_ofNat_flagNat, Int.bmod_add_bmod]

theorem toInt_subWithBorrow (a b : Word) (cin : Bool) :
    (subWithBorrow a b cin).result.toInt = (a.toInt - b.toInt - flagNat (!cin)).bmod (2 ^ 32) := by
  rw [subWithBorrow_eq, sub_add_carry_sub_one, BitVec.toInt_sub, BitVec.toInt_sub, toInt_ofNat_flagNat, Int.bmod_sub_bmod]

theorem toNat_addWithCarry (a b : Word) (cin : Bool) :
    (addWithCarry a b cin).result.toNat + 2 ^ 32 * flagNat (addWithCarry a b cin).carry = a.toNat + b.toNat + flagNat cin := by
  have := flagNat_le_one cin
  simp only [addWithCarry_eq, BitVec.toNat_add, BitVec.toNat_ofNat, flagNat_decide]
  split <;> omega

theorem toNat_subWithBorrow (a b : Word) (cin : Bool) :
    ((subWithBorrow a b cin).result.toNat : Int) - 2 ^ 32 * flagNat (!(subWithBorrow a b cin).carry) =
      a.toNat - b.toNat - flagNat (!cin) := by
  have := flagNat_le_one (!cin)
  simp only [subWithBorrow_eq, sub_add_carry_sub_one, BitVec.toNat_sub, BitVec.toNat_ofNat, flagNat_not (decide _), flagNat_decide]
  split <;> omega

/-- Settles O12: the result is the exact value modulo 2^32, and no overflow says that it is the exact value. -/
theorem arithmeticHelpersAreExact : Obligations.ArithmeticHelpersAreExact := by
  unfold Obligations.ArithmeticHelpersAreExact
  intro a b cin
  refine ⟨toNat_addWithCarry a b cin, ?_, toNat_subWithBorrow a b cin, ?_⟩
  · rw [toInt_addWithCarry, addWithCarry_eq, outOfRange_eq_false_iff]
  · rw [toInt_subWithBorrow, subWithBorrow_eq, outOfRange_eq_false_iff]

/-! ## A data-processing instruction completes (R120) -/

theorem writeResult_completes (s : State) (rd : Reg) (o : AluOut) :
    Completes s (some rd) o.result o.carry o.overflow (.next (s.writeResult rd o)) := by
  refine ⟨_, rfl, fun q hq => ?_, ?_, rfl, sameMemory_of_mem_eq (writeResult_mem s rd o)⟩
  · simp [x_writeResult_ne s rd o hq]
  · simp [pc_writeResult]

theorem compareResult_completes (s : State) (o : AluOut) :
    Completes s none o.result o.carry o.overflow (.next (s.compareResult o)) :=
  ⟨_, rfl, fun _ hq => x_compareResult_ne s o hq, pc_compareResult s o, rfl, sameMemory_of_mem_eq (compareResult_mem s o)⟩

/-- A data-processing instruction whose condition holds completes with the output of its ALU. -/
theorem exec_completes {s : State} {c : Cond} (hc : condHolds c s.flags = true) (op : Opcode) (sb : Bool) (rn rd : Reg)
    (operand : Operand) :
    Completes s (if writesRd op then some rd else none) (dpOut op rn operand s).result (dpOut op rn operand s).carry
      (dpOut op rn operand s).overflow (exec (Instr.ofInstruction ⟨c, .dataProcessing op sb rn rd operand⟩) s) := by
  rw [exec_of_holds _ s (by rwa [Instr.cond, toInstruction_ofInstruction]), toInstruction_ofInstruction, bodyEffect]
  cases writesRd op with
  | true => exact writeResult_completes s rd _
  | false => exact compareResult_completes s _

/-- An opcode whose ALU line is known completes in its three operand forms. -/
theorem allForms_complete {s : State} {c : Cond} (hc : condHolds c s.flags = true) (op : Opcode) (sb : Bool) (rn rd : Reg)
    {result : Word → Word} {carry overflow : Word → Bool}
    (halu : ∀ rhs, alu op (s.x rn) rhs s.flags = ⟨result rhs, carry rhs, overflow rhs⟩) :
    AllForms s (instrImm op c sb rn rd) (instrRsi op c sb rn rd) (instrRsr op c sb rn rd) fun rhs o =>
      Completes s (if writesRd op then some rd else none) (result rhs) (carry rhs) (overflow rhs) o := by
  have h (operand : Operand) := exec_completes hc op sb rn rd operand
  simp only [dpOut, halu] at h
  refine ⟨fun rotate value => h (.immediate rotate value), fun type amount rm => h (.shiftByImm type amount rm),
    fun type rs rm => ?_⟩
  have hrsr := h (.shiftByReg type rs rm)
  rwa [operand2, shiftRegOperand, regShiftAmount_eq] at hrsr

/-! ## The sixteen opcodes (R128 to R143) -/

/-- Settles O15: the subtractor without a borrow in. -/
theorem subWritesDifference : Obligations.SubWritesDifference := by
  unfold Obligations.SubWritesDifference
  intro s c sb rn rd hc
  exact allForms_complete hc .sub sb rn rd fun rhs => subWithBorrow_true (s.x rn) rhs

/-- Settles O16: the subtractor without a borrow in, on the operands reversed. -/
theorem rsbWritesReverseDifference : Obligations.RsbWritesReverseDifference := by
  unfold Obligations.RsbWritesReverseDifference
  intro s c sb rn rd hc
  exact allForms_complete hc .rsb sb rn rd fun rhs => subWithBorrow_true rhs (s.x rn)

/-- Settles O17: the adder without a carry in. -/
theorem addWritesSum : Obligations.AddWritesSum := by
  unfold Obligations.AddWritesSum
  intro s c sb rn rd hc
  exact allForms_complete hc .add sb rn rd fun rhs => addWithCarry_false (s.x rn) rhs

/-- Settles O18: the adder with C as the carry in. -/
theorem adcWritesSumWithCarry : Obligations.AdcWritesSumWithCarry := by
  unfold Obligations.AdcWritesSumWithCarry
  intro s c sb rn rd hc
  exact allForms_complete hc .adc sb rn rd fun rhs => addWithCarry_eq (s.x rn) rhs s.flags.c

/-- Settles O19: the subtractor with C as no-borrow in. -/
theorem sbcWritesDifferenceWithBorrow : Obligations.SbcWritesDifferenceWithBorrow := by
  unfold Obligations.SbcWritesDifferenceWithBorrow
  intro s c sb rn rd hc
  exact allForms_complete hc .sbc sb rn rd fun rhs => subWithBorrow_eq (s.x rn) rhs s.flags.c

/-- Settles O20: the subtractor with C as no-borrow in, on the operands reversed. -/
theorem rscWritesReverseDifferenceWithBorrow : Obligations.RscWritesReverseDifferenceWithBorrow := by
  unfold Obligations.RscWritesReverseDifferenceWithBorrow
  intro s c sb rn rd hc
  exact allForms_complete hc .rsc sb rn rd fun rhs => subWithBorrow_eq rhs (s.x rn) s.flags.c

/-- Settles O23: the output of SUB, with no destination. -/
theorem cmpSetsFlagsOfDifference : Obligations.CmpSetsFlagsOfDifference := by
  unfold Obligations.CmpSetsFlagsOfDifference
  intro s c sb rn rd hc
  exact allForms_complete hc .cmp sb rn rd fun rhs => subWithBorrow_true (s.x rn) rhs

/-- Settles O24: the output of ADD, with no destination. -/
theorem cmnSetsFlagsOfSum : Obligations.CmnSetsFlagsOfSum := by
  unfold Obligations.CmnSetsFlagsOfSum
  intro s c sb rn rd hc
  exact allForms_complete hc .cmn sb rn rd fun rhs => addWithCarry_false (s.x rn) rhs

/-- Settles O13: the output of a logical opcode is its word, with C and V as they were. -/
theorem andWritesBitwiseAnd : Obligations.AndWritesBitwiseAnd := by
  unfold Obligations.AndWritesBitwiseAnd
  intro s c sb rn rd hc
  exact allForms_complete hc .and sb rn rd fun _ => rfl

/-- Settles O14: a logical opcode, as AND. -/
theorem eorWritesExclusiveOr : Obligations.EorWritesExclusiveOr := by
  unfold Obligations.EorWritesExclusiveOr
  intro s c sb rn rd hc
  exact allForms_complete hc .eor sb rn rd fun _ => rfl

/-- Settles O21: the output of AND, with no destination. -/
theorem tstSetsFlagsOfAnd : Obligations.TstSetsFlagsOfAnd := by
  unfold Obligations.TstSetsFlagsOfAnd
  intro s c sb rn rd hc
  exact allForms_complete hc .tst sb rn rd fun _ => rfl

/-- Settles O22: the output of EOR, with no destination. -/
theorem teqSetsFlagsOfExclusiveOr : Obligations.TeqSetsFlagsOfExclusiveOr := by
  unfold Obligations.TeqSetsFlagsOfExclusiveOr
  intro s c sb rn rd hc
  exact allForms_complete hc .teq sb rn rd fun _ => rfl

/-- Settles O25: a logical opcode, as AND. -/
theorem orrWritesBitwiseOr : Obligations.OrrWritesBitwiseOr := by
  unfold Obligations.OrrWritesBitwiseOr
  intro s c sb rn rd hc
  exact allForms_complete hc .orr sb rn rd fun _ => rfl

/-- Settles O26: a logical opcode whose ALU line ignores `x[Rn]`. -/
theorem movWritesOperand : Obligations.MovWritesOperand := by
  unfold Obligations.MovWritesOperand
  intro s c sb rn rd hc
  exact allForms_complete hc .mov sb rn rd fun _ => rfl

/-- Settles O27: a logical opcode, as AND. -/
theorem bicClearsBits : Obligations.BicClearsBits := by
  unfold Obligations.BicClearsBits
  intro s c sb rn rd hc
  exact allForms_complete hc .bic sb rn rd fun _ => rfl

/-- Settles O28: a logical opcode whose ALU line ignores `x[Rn]`. -/
theorem mvnWritesComplement : Obligations.MvnWritesComplement := by
  unfold Obligations.MvnWritesComplement
  intro s c sb rn rd hc
  exact allForms_complete hc .mvn sb rn rd fun _ => rfl

/-- Settles O34: the effect of a body does not mention its S bit. -/
theorem sBitHasNoEffect : Obligations.SBitHasNoEffect := by
  unfold Obligations.SBitHasNoEffect
  intro s c op sb sb' rn rd o
  exact exec_ofInstruction_congr rfl

/-! ## The order a compare decides (R103, R138) -/

theorem allForms_imp {s : State} {imm : BitVec 4 → BitVec 8 → Instr} {rsi : ShiftType → BitVec 5 → Reg → Instr}
    {rsr : ShiftType → Reg → Reg → Instr} {P Q : Word → Result → Prop} (hPQ : ∀ rhs o, P rhs o → Q rhs o)
    (h : AllForms s imm rsi rsr P) : AllForms s imm rsi rsr Q := by
  obtain ⟨himm, hrsi, hrsr⟩ := h
  exact ⟨fun _ _ => hPQ _ _ (himm _ _), fun _ _ _ => hPQ _ _ (hrsi _ _ _), fun _ _ _ => hPQ _ _ (hrsr _ _ _)⟩

/-- The sign bit is the sign. -/
theorem getLsbD_31_eq (w : Word) : w.getLsbD 31 = decide (w.toInt < 0) := by
  rw [← BitVec.msb_eq_toInt]
  rfl

section
variable (a b : Word)

theorem subFlags_n : (subWithBorrow a b true).flags.n = true ↔ (a - b).toInt < 0 := by
  rw [subWithBorrow_true, aluFlags_n, getLsbD_31_eq, decide_eq_true_eq]

theorem subFlags_z : (subWithBorrow a b true).flags.z = true ↔ a = b := by
  simp [subWithBorrow_true, BitVec.sub_eq_iff_eq_add]

theorem subFlags_c : (subWithBorrow a b true).flags.c = true ↔ b.toNat ≤ a.toNat := by
  rw [subWithBorrow_true, aluFlags_c, decide_eq_true_eq]

theorem subFlags_v : (subWithBorrow a b true).flags.v = outOfRange (a.toInt - b.toInt) := by
  rw [subWithBorrow_true, aluFlags_v]

/-- The sign of the difference is wrong exactly when it overflows, so N = V says that the exact difference is not negative. -/
theorem subFlags_n_eq_v : (subWithBorrow a b true).flags.n = (subWithBorrow a b true).flags.v ↔ b.toInt ≤ a.toInt := by
  have := a.toInt_lt; have := a.le_toInt; have := b.toInt_lt; have := b.le_toInt
  rw [Bool.eq_iff_iff, subFlags_n, subFlags_v, outOfRange_eq_true_iff, BitVec.toInt_sub, Int.bmod_def]
  split <;> omega

end

/-- Settles O31: N, Z, C and V of the difference decide the sign, equality, the unsigned order and the overflow, and N = V the signed
order. -/
theorem compareOrdersSignedAndUnsigned : Obligations.CompareOrdersSignedAndUnsigned := by
  unfold Obligations.CompareOrdersSignedAndUnsigned
  intro s c sb rn rd hcond
  refine allForms_imp (fun rhs o h => ?_) (cmpSetsFlagsOfDifference s c sb rn rd hcond)
  obtain ⟨t, ho, -, -, hflags, -⟩ := h
  refine ⟨t, ho, ?_⟩
  have hcmp : t.flags = (subWithBorrow (s.x rn) rhs true).flags := by
    rw [hflags, subWithBorrow_true]
    rfl
  rw [hcmp]
  generalize s.x rn = a
  obtain ⟨heq, hne, hcs, hcc, hmi, hpl, hvs, hvc, hhi, hls, hge, hlt, hgt, hle, -⟩ :=
    conditionPredicates (subWithBorrow a rhs true).flags
  have hn := subFlags_n a rhs
  have hz := subFlags_z a rhs
  have hc := subFlags_c a rhs
  have hv := subFlags_v a rhs
  have hnv := subFlags_n_eq_v a rhs
  have hn' := Bool.eq_false_iff.trans (not_congr hn)
  have hz' := Bool.eq_false_iff.trans (not_congr hz)
  have hc' := Bool.eq_false_iff.trans (not_congr hc)
  have hsigned : a = rhs ↔ a.toInt = rhs.toInt := BitVec.toInt_inj.symm
  have hunsigned : a = rhs ↔ a.toNat = rhs.toNat := BitVec.toNat_inj.symm
  refine ⟨heq.trans hz, hne.trans hz', hge.trans hnv, hlt.trans ?_, hgt.trans ?_, hle.trans ?_, hcs.trans hc, hcc.trans ?_,
    hhi.trans ?_, hls.trans ?_, hmi.trans hn, hpl.trans ?_, hv ▸ hvs, hv ▸ hvc⟩
  · rw [ne_eq, hnv, Int.not_le]
  · rw [hz', hnv, hsigned]
    omega
  · rw [hz, ne_eq, hnv, hsigned]
    omega
  · rw [hc', Nat.not_le]
  · rw [hc, hz', hunsigned]
    omega
  · rw [hc', hz, hunsigned]
    omega
  · rw [hn', Int.not_lt]

/-! ## 64-bit sums and differences in two words (R132 to R134) -/

theorem toNat_append_word (hi lo : Word) : (hi ++ lo : BitVec 64).toNat = hi.toNat * 2 ^ 32 + lo.toNat := toNat_append_eq hi lo

theorem toInt_append_word (hi lo : Word) : (hi ++ lo : BitVec 64).toInt = 2 ^ 32 * hi.toInt + lo.toNat := BitVec.toInt_append

section
variable (ah al bh bl : Word)

/-- Adding the high words with the carry of the low words adds the numbers. -/
theorem append_addWithCarry :
    ((addWithCarry ah bh (addWithCarry al bl false).carry).result ++ (addWithCarry al bl false).result : BitVec 64) =
      (ah ++ al) + (bh ++ bl) := by
  have hlo := toNat_addWithCarry al bl false
  have hhi := toNat_addWithCarry ah bh (addWithCarry al bl false).carry
  apply BitVec.eq_of_toNat_eq
  simp only [BitVec.toNat_add, toNat_append_word]
  rw [show flagNat false = 0 from rfl] at hlo
  omega

theorem addWithCarry_carry_64 :
    (addWithCarry ah bh (addWithCarry al bl false).carry).carry = true ↔
      2 ^ 64 ≤ (ah ++ al : BitVec 64).toNat + (bh ++ bl : BitVec 64).toNat := by
  rw [addWithCarry_eq ah, addWithCarry_false, toNat_append_word, toNat_append_word, decide_eq_true_eq, flagNat_decide]
  split <;> omega

theorem addWithCarry_overflow_64 :
    (addWithCarry ah bh (addWithCarry al bl false).carry).overflow = true ↔
      (ah ++ al : BitVec 64).toInt + (bh ++ bl : BitVec 64).toInt < -(2 ^ 63) ∨
        2 ^ 63 ≤ (ah ++ al : BitVec 64).toInt + (bh ++ bl : BitVec 64).toInt := by
  simp only [addWithCarry_eq ah, addWithCarry_false, toInt_append_word, outOfRange_eq_true_iff, flagNat_decide]
  split <;> omega

/-- Subtracting the high words with the borrow of the low words subtracts the numbers. -/
theorem append_subWithBorrow :
    ((subWithBorrow ah bh (subWithBorrow al bl true).carry).result ++ (subWithBorrow al bl true).result : BitVec 64) =
      (ah ++ al) - (bh ++ bl) := by
  have hlo := toNat_subWithBorrow al bl true
  have hhi := toNat_subWithBorrow ah bh (subWithBorrow al bl true).carry
  apply BitVec.eq_of_toNat_eq
  simp only [BitVec.toNat_sub, toNat_append_word]
  rw [show flagNat (!true) = 0 from rfl] at hlo
  omega

theorem subWithBorrow_carry_64 :
    (subWithBorrow ah bh (subWithBorrow al bl true).carry).carry = true ↔
      (bh ++ bl : BitVec 64).toNat ≤ (ah ++ al : BitVec 64).toNat := by
  rw [subWithBorrow_eq ah, subWithBorrow_true, toNat_append_word, toNat_append_word, decide_eq_true_eq, flagNat_not, flagNat_decide]
  split <;> omega

theorem subWithBorrow_overflow_64 :
    (subWithBorrow ah bh (subWithBorrow al bl true).carry).overflow = true ↔
      (ah ++ al : BitVec 64).toInt - (bh ++ bl : BitVec 64).toInt < -(2 ^ 63) ∨
        2 ^ 63 ≤ (ah ++ al : BitVec 64).toInt - (bh ++ bl : BitVec 64).toInt := by
  simp only [subWithBorrow_eq ah, subWithBorrow_true, toInt_append_word, outOfRange_eq_true_iff, flagNat_not, flagNat_decide]
  split <;> omega

end

/-- An unconditional instruction on two registers, neither shifted, writes what the ALU makes of them. -/
theorem exec_unshifted {op : Opcode} (hw : writesRd op = true) (sb : Bool) (rn rd rm : Reg) (s : State) :
    exec (instrRsi op .al sb rn rd .logicalLeft 0 rm) s =
      .next (s.writeResult rd (alu op (s.x rn) (s.x rm) s.flags)) := by
  have hinstr : instrRsi op .al sb rn rd .logicalLeft 0 rm =
      Instr.ofInstruction ⟨.al, .dataProcessing op sb rn rd (.shiftByImm .logicalLeft 0 rm)⟩ := rfl
  have hout : dpOut op rn (.shiftByImm .logicalLeft 0 rm) s = alu op (s.x rn) (s.x rm) s.flags :=
    congrArg (alu op (s.x rn) · s.flags) (shift_zero .logicalLeft (s.x rm))
  rw [hinstr, exec_of_holds _ s (by rw [Instr.cond, toInstruction_ofInstruction]; rfl), toInstruction_ofInstruction, bodyEffect,
    if_pos hw, hout]

/-- Two such instructions in a row, the first of which does not write what the second reads: the second sees the flags of the first
(R106). -/
theorem exec_unshifted_pair {lo hi : Opcode} (hlo : writesRd lo = true) (hhi : writesRd hi = true) (s : State) (sb sb' : Bool)
    {al ah bl bh dl dh : Reg} (hdl : dl ≠ Reg.pc) (hdh : dh ≠ Reg.pc) (hdlah : dl ≠ ah) (hdlbh : dl ≠ bh) (hdldh : dl ≠ dh)
    (hah : ah ≠ Reg.pc) (hbh : bh ≠ Reg.pc) :
    ∃ t u, exec (instrRsi lo .al sb al dl .logicalLeft 0 bl) s = .next t ∧
      exec (instrRsi hi .al sb' ah dh .logicalLeft 0 bh) t = .next u ∧
      u.x dl = (alu lo (s.x al) (s.x bl) s.flags).result ∧
      u.x dh = (alu hi (s.x ah) (s.x bh) (alu lo (s.x al) (s.x bl) s.flags).flags).result ∧
      u.flags = (alu hi (s.x ah) (s.x bh) (alu lo (s.x al) (s.x bl) s.flags).flags).flags := by
  refine ⟨_, _, exec_unshifted hlo sb al dl bl s, exec_unshifted hhi sb' ah dh bh _, ?_, ?_, ?_⟩
  · simp [x_writeResult_ne, hdl, hdldh.symm]
  · simp [x_writeResult_ne, hdh, hah, hbh, hdlah, hdlbh]
  · simp [x_writeResult_ne, hah, hbh, hdlah, hdlbh]

/-- Settles O32: ADC reads the carry ADD leaves. -/
theorem addThenAdcAddsSixtyFourBits : Obligations.AddThenAdcAddsSixtyFourBits := by
  unfold Obligations.AddThenAdcAddsSixtyFourBits
  intro s sb sb' al ah bl bh dl dh hdl hdh hdlah hdlbh hdldh hah hbh
  obtain ⟨t, u, ht, hu, hlo, hhi, hflags⟩ :=
    exec_unshifted_pair (lo := .add) (hi := .adc) (al := al) (bl := bl) rfl rfl s sb sb' hdl hdh hdlah hdlbh hdldh hah hbh
  refine ⟨t, u, ht, hu, ?_, ?_, ?_⟩
  · rw [hlo, hhi]
    exact append_addWithCarry _ _ _ _
  · rw [hflags]
    exact addWithCarry_carry_64 _ _ _ _
  · rw [hflags]
    exact addWithCarry_overflow_64 _ _ _ _

/-- Settles O33: SBC reads the borrow SUB leaves. -/
theorem subThenSbcSubtractsSixtyFourBits : Obligations.SubThenSbcSubtractsSixtyFourBits := by
  unfold Obligations.SubThenSbcSubtractsSixtyFourBits
  intro s sb sb' al ah bl bh dl dh hdl hdh hdlah hdlbh hdldh hah hbh
  obtain ⟨t, u, ht, hu, hlo, hhi, hflags⟩ :=
    exec_unshifted_pair (lo := .sub) (hi := .sbc) (al := al) (bl := bl) rfl rfl s sb sb' hdl hdh hdlah hdlbh hdldh hah hbh
  refine ⟨t, u, ht, hu, ?_, ?_, ?_⟩
  · rw [hlo, hhi]
    exact append_subWithBorrow _ _ _ _
  · rw [hflags]
    exact subWithBorrow_carry_64 _ _ _ _
  · rw [hflags]
    exact subWithBorrow_overflow_64 _ _ _ _

end Sys2Proof.Machine
end

section
/-! PROOFS about the branches (spec/42_branch.md): where B and BL go and what BL leaves in R14 (R146, R147), and the return through a
data-processing write of R15 (R149). -/

namespace Sys2Proof.Machine

open Sys2Proof.Claim

/-! ## A branch completes (R146, R147) -/

/-- Of the registers but the pc, a branch writes at most R14, with the address after its own when it links. -/
theorem x_bodyEffect_branch (link : Bool) (offset : BitVec 24) (s : State) {q : Reg} (hq : q ≠ Reg.pc) :
    (bodyEffect (.branch link offset) s).x q = if link = true ∧ q = Reg.lr then s.pc + 4 else s.x q := by
  cases link with
  | true => simp [bodyEffect, x_setPc_ne _ _ hq, x_setX, linkValue, eq_comm (a := q)]
  | false => simp [bodyEffect, x_setPc_ne s _ hq]

/-- An instruction of the Branch class whose condition holds goes to its exact target and writes R14 alone besides, if it links. -/
theorem exec_branch_completes {i : Instr} {link : Bool} {offset : BitVec 24} (hi : i.toInstruction.body = .branch link offset)
    {s : State} (hc : condHolds i.cond s.flags = true) :
    ∃ t, exec i s = .next t ∧ t.pc = BitVec.ofInt 32 (s.pc.toNat + 4 + 4 * offset.toInt) ∧
      (∀ q, q ≠ Reg.pc → t.x q = if link = true ∧ q = Reg.lr then s.pc + 4 else s.x q) ∧ t.flags = s.flags ∧ SameMemory s t := by
  refine ⟨_, exec_of_holds i s hc, ?_⟩
  rw [hi]
  exact ⟨by rw [pc_bodyEffect_branch, branchTarget_eq], fun q hq => x_bodyEffect_branch link offset s hq,
    bodyEffect_branch_flags link offset s, sameMemory_of_mem_eq (bodyEffect_mem _ s)⟩

/-- Settles O29: a branch that does not link. -/
theorem branchGoesToItsTarget : Obligations.BranchGoesToItsTarget := by
  unfold Obligations.BranchGoesToItsTarget
  intro s c offset hc
  obtain ⟨t, ht, hpc, hx, hflags, hmem⟩ := exec_branch_completes (i := .b c offset) rfl hc
  exact ⟨t, ht, hpc, by simpa using hx, hflags, hmem⟩

/-- Settles O30: a branch that links. -/
theorem branchWithLinkSavesReturnAddress : Obligations.BranchWithLinkSavesReturnAddress := by
  unfold Obligations.BranchWithLinkSavesReturnAddress
  intro s c offset hc
  obtain ⟨t, ht, hpc, hx, hflags, hmem⟩ := exec_branch_completes (i := .bl c offset) rfl hc
  have hlr : t.x Reg.lr = s.pc + 4 := by simpa using hx Reg.lr (by decide)
  have hother : ∀ q, q ≠ Reg.pc → q ≠ Reg.lr → t.x q = s.x q := fun q hq hqlr => by simpa [hqlr] using hx q hq
  exact ⟨t, ht, hlr, hpc, hother, hflags, hmem⟩

/-! ## The return from a call (R145, R149) -/

/-- A data-processing instruction that writes R15 resumes 4 past its result (R145). -/
theorem pc_of_completes_pc {s : State} {r : Word} {c v : Bool} {o : Result} (h : Completes s (some Reg.pc) r c v o) :
    ∃ t, o = .next t ∧ t.pc = r + 4 := by
  obtain ⟨t, ho, -, hpc, -, -⟩ := h
  exact ⟨t, ho, by rw [hpc, if_pos rfl]⟩

/-- `sub pc, lr, #4` resumes where R14 points: the 4 it takes off is the 4 of the advance. -/
theorem exec_sub_pc_lr_four (u : State) (sb : Bool) :
    ∃ v, exec (.subImm .al sb Reg.lr Reg.pc 0 4) u = .next v ∧ v.pc = u.x Reg.lr := by
  obtain ⟨himm, -, -⟩ := subWritesDifference u .al sb Reg.lr Reg.pc rfl
  obtain ⟨v, hv, hpc⟩ := pc_of_completes_pc (himm 0 4)
  have hfour : immOperand 0 4 = 4 := by decide
  exact ⟨v, hv, by rw [hpc, hfour, BitVec.sub_add_cancel]⟩

/-- `mov pc, lr` resumes 4 past where R14 points. -/
theorem exec_mov_pc_lr (u : State) (sb : Bool) (rn : Reg) :
    ∃ v, exec (.movRsi .al sb rn Reg.pc .logicalLeft 0 Reg.lr) u = .next v ∧ v.pc = u.x Reg.lr + 4 := by
  obtain ⟨-, hrsi, -⟩ := movWritesOperand u .al sb rn Reg.pc rfl
  obtain ⟨v, hv, hpc⟩ := pc_of_completes_pc (hrsi .logicalLeft 0 Reg.lr)
  exact ⟨v, hv, by simp [hpc]⟩

/-- Settles O52: R14 holds the address after the BL, and the two returns resume there and 4 past it. -/
theorem callReturnsThroughLinkRegister : Obligations.CallReturnsThroughLinkRegister := by
  unfold Obligations.CallReturnsThroughLinkRegister
  intro s c offset hc
  obtain ⟨t, ht, hlr, -⟩ := branchWithLinkSavesReturnAddress s c offset hc
  refine ⟨t, ht, fun u sb rn hu => ?_⟩
  obtain ⟨v, hv, hsub⟩ := exec_sub_pc_lr_four u sb
  obtain ⟨w, hw, hmov⟩ := exec_mov_pc_lr u sb rn
  rw [hlr] at hu
  refine ⟨⟨v, hv, hsub.trans hu⟩, w, hw, ?_⟩
  calc w.pc = s.pc + 4 + 4 := by rw [hmov, hu]
    _ = s.pc + 8 := BitVec.add_assoc s.pc 4 4

end Sys2Proof.Machine
end

section
/-! PROOFS about the errors (spec/60_exceptions.md): which error a step reports and when (R186), that a failed step repeats its error
(R184), and the self-branch that ends a program by convention (R197). -/

namespace Sys2Proof.Machine

/-! ## The error a step reports (R186) -/

/-- A fetch that does not lie inside memory reports the pc and decodes nothing (R183). -/
theorem fetchInstr_outOfBounds {s : State} (h : s.mem.size < s.pc.toNat + 4) : s.fetchInstr = .error (.fetchError s.pc) := by
  simp [State.fetchInstr, Memory.inBounds, Nat.not_le.2 h]

theorem step_outOfBounds {s : State} (h : s.mem.size < s.pc.toNat + 4) : step s = .fault (.fetchError s.pc) := by
  rw [step, fetchInstr_outOfBounds h]

/-- Settles O40: the bounds check comes first, and inside memory the step follows what decoding the
fetched word answers; an instruction always answers a next state. -/
theorem stepErrorsInFixedOrder : Obligations.StepErrorsInFixedOrder := by
  unfold Obligations.StepErrorsInFixedOrder
  intro s
  obtain ⟨hcond, hclass, hok⟩ := decodeFailsInExactlyTwoCases (s.mem.fetchWord s.pc.toNat)
  have hdecodes (hin : s.pc.toNat + 4 ≤ s.mem.size) := stepDecodes_of_wordAt (wordAt_iff.2 ⟨hin, rfl⟩)
  refine ⟨step_outOfBounds, fun hin h15 => ?_, fun hin h15 hodd => ?_, fun hin h15 heven => ?_⟩
  · obtain ⟨_, _, _, hfault, _⟩ := hdecodes hin
    exact hfault (hcond.2 h15)
  · obtain ⟨_, _, _, _, hfault⟩ := hdecodes hin
    exact hfault (hclass.2 ⟨h15, by omega⟩)
  · obtain ⟨_, _, hexec, _, _⟩ := hdecodes hin
    obtain ⟨i, hi⟩ := hok.2 ⟨h15, by omega⟩
    obtain ⟨t, ht, _⟩ := everyInstructionWritesOnlyItsDestination i s
    exact ⟨t, (hexec i hi).trans ht⟩

/-! ## A failed step repeats its error (R184) -/

/-- A failed step adds its error to the session's and leaves the state to what follows. -/
theorem session_step_of_fault {s : State} {e : Fault} (h : step s = .fault e) (rest : List Event) :
    session (.step :: rest) s = ((session rest s).1, e :: (session rest s).2) := by
  rw [session, h]

/-- Settles O49, by induction on the number of calls: each begins in the state the failed one left, which is `s`. -/
theorem failedStepRepeatsItsError : Obligations.FailedStepRepeatsItsError := by
  unfold Obligations.FailedStepRepeatsItsError
  intro s e n h
  induction n with
  | zero => rfl
  | succ n ih => rw [List.replicate_succ, session_step_of_fault h, ih, List.replicate_succ]

/-! ## The self-branch (R197) -/

/-- Offset -1 takes back the 4 of the advance: the target is the branch's own address (R146). -/
theorem branchTarget_neg_one (a : Word) : branchTarget a 0xFFFFFF#24 = a := by
  have hback : (0xFFFFFF#24).signExtend 32 <<< 2 = -4#32 := by decide
  rw [branchTarget, hback, ← BitVec.sub_eq_add_neg, BitVec.add_sub_cancel]

/-- Settles O51: the self-branch writes the pc alone, with the value it holds. -/
theorem selfBranchChangesNothing : Obligations.SelfBranchChangesNothing := by
  unfold Obligations.SelfBranchChangesNothing
  intro s
  calc exec (.b .al 0xFFFFFF#24) s = .next (s.setPc (branchTarget s.pc 0xFFFFFF#24)) := exec_of_holds (.b .al 0xFFFFFF#24) s rfl
    _ = .next s := by rw [branchTarget_neg_one, setPc_pc_self]

end Sys2Proof.Machine
end

section
/-! PROOFS about the launch (spec/70_reset_and_hazards.md R199): a launch starts with exactly its parameters, and the model's reset, the
launch with every register, flag and byte 0, meets the invariants. -/

namespace Sys2Proof.Machine

open Sys2Proof.Claim

/-! ## Any launch (R199) -/

@[simp] theorem x_launch (l : Launch) (q : Reg) : (State.launch l).x q = l.initRegs[q.val] := rfl

@[simp] theorem mem_launch (l : Launch) : (State.launch l).mem = l.initMem := rfl

@[simp] theorem flags_launch (l : Launch) : (State.launch l).flags = Flags.unpack l.initFlags := rfl

/-- A bit as a number is the byte's quotient modulo 2. -/
theorem flagNat_getLsbD (b : Byte) (k : Nat) : flagNat (b.getLsbD k) = b.toNat / 2 ^ k % 2 := by
  rw [flagNat_eq_toNat, BitVec.getLsbD, Nat.toNat_testBit]

/-- Packing the flags of a byte gives its lower half back; the upper half is gone (R25). -/
theorem toNat_pack_unpack (b : Byte) : (Flags.unpack b).pack.toNat = b.toNat % 16 := by
  simp only [toNat_pack, Flags.unpack, flagNat_getLsbD]
  omega

/-! ## The reset launch (logs 1 to 5) -/

@[simp] theorem x_reset (q : Reg) : State.reset.x q = 0 := (x_launch Launch.reset q).trans (Vector.getElem_replicate q.isLt)

theorem pc_reset : State.reset.pc = 0 := x_reset Reg.pc

@[simp] theorem flags_reset : State.reset.flags = ⟨false, false, false, false⟩ := rfl

@[simp] theorem mem_reset : State.reset.mem = ⟨2 ^ 32, []⟩ := rfl

/-- Settles O45: reset is the launch of zeros, and the flags byte of a launch is read through `unpack`. -/
theorem resetIsTheZeroLaunch : Obligations.ResetIsTheZeroLaunch := by
  unfold Obligations.ResetIsTheZeroLaunch
  refine ⟨x_reset, flags_reset, rfl, fun a => ?_, fun l => ⟨x_launch l, mem_launch l, ?_⟩⟩
  · rw [mem_reset, readByte_empty]
    rfl
  · rw [flags_launch, toNat_pack_unpack]

/-! ## The invariants at reset (R22, R31) -/

/-- A memory with nothing listed is canonical at every size the address space allows (R31). -/
theorem wf_empty {n : Nat} (h : n ≤ 2 ^ 32) : Memory.wf ⟨n, []⟩ = true := wf_iff.2 ⟨h, rfl⟩

/-- The zero word is `andeq r0, r0, r0`. -/
theorem decode_zero : decode 0x00000000#32 = .ok (.andRsi .eq false 0 0 .logicalLeft 0 0) := by decide

/-- A memory with nothing listed holds no instruction that writes R15: each of its words is the zero word, whose destination is
R0. -/
theorem branchesOnly_empty (n : Nat) : Memory.branchesOnly ⟨n, []⟩ := by
  intro k i h
  rw [fetchWord_empty, decode_zero] at h
  cases h
  decide

/-- Settles O44: the reset memory lists nothing, and the pc is 0. -/
theorem resetMeetsTheInvariants : Obligations.ResetMeetsTheInvariants := by
  unfold Obligations.ResetMeetsTheInvariants
  have hpc : State.reset.pc.toNat % 4 = 0 := by rw [pc_reset]; rfl
  exact ⟨wf_empty le_rfl, hpc, branchesOnly_empty _⟩

end Sys2Proof.Machine
end

section
/-! PROOFS about the opcode table (spec/30_encoding.md, "How to read opcode_table.json"): a row's mask and pattern fix the fields of a
word that decoding reads the row from. Beside them, the words the spec writes out (L2.1). -/

namespace Sys2Proof

/-- Settles O1, by running `decode` on each of the seventeen words. -/
theorem specWordsDecodeAsListed : Obligations.SpecWordsDecodeAsListed := by
  unfold Obligations.SpecWordsDecodeAsListed
  decide

/-! ## The rows, by name -/

/-- The row with a name: the fixed fields of its form (R52 to R55), and the bits these fields hold. -/
def RowName.entry : RowName → OpcodeRow
  | .imm op => ⟨.imm op, 0b0000_00_1#7 ++ op.code ++ 0#21, 0x0FE00000#32⟩
  | .rsi op => ⟨.rsi op, 0b0000_00_0#7 ++ op.code ++ 0#16 ++ 0#5, 0x0FE00010#32⟩
  | .rsr op => ⟨.rsr op, 0b0000_00_0#7 ++ op.code ++ 0#16 ++ 0b1_0000#5, 0x0FE00010#32⟩
  | .b => ⟨.b, 0b0000_10_0#7 ++ 0#25, 0x0E000000#32⟩
  | .bl => ⟨.bl, 0b0000_10_1#7 ++ 0#25, 0x0E000000#32⟩

@[simp] theorem entry_name (n : RowName) : n.entry.name = n := by cases n <;> rfl

theorem entry_mem_opcodeTable (n : RowName) : n.entry ∈ opcodeTable := by
  cases n with
  | imm op => cases op <;> decide
  | rsi op => cases op <;> decide
  | rsr op => cases op <;> decide
  | b => decide
  | bl => decide

theorem eq_entry_of_mem_opcodeTable : ∀ row ∈ opcodeTable, row = row.name.entry := by decide

/-- The table has exactly one row of each name. -/
theorem mem_opcodeTable_and_name_iff {row : OpcodeRow} {n : RowName} : row ∈ opcodeTable ∧ row.name = n ↔ row = n.entry := by
  constructor
  · rintro ⟨hmem, rfl⟩
    exact eq_entry_of_mem_opcodeTable row hmem
  · rintro rfl
    exact ⟨entry_mem_opcodeTable n, entry_name n⟩

/-! ## A row's mask and pattern as fields -/

/-- A word's fields are those of a row: its class, then the I bit, opcode and `w[4]`, or the L bit (R50, R52 to R56). -/
def RowName.HasFields : RowName → Word → Prop
  | .imm op, w => w.toNat / 2 ^ 26 % 4 = 0 ∧ w.toNat / 2 ^ 25 % 2 = 1 ∧ w.toNat / 2 ^ 21 % 16 = op.code.toNat
  | .rsi op, w => w.toNat / 2 ^ 26 % 4 = 0 ∧ w.toNat / 2 ^ 25 % 2 = 0 ∧ w.toNat / 2 ^ 21 % 16 = op.code.toNat ∧
      w.toNat / 2 ^ 4 % 2 = 0
  | .rsr op, w => w.toNat / 2 ^ 26 % 4 = 0 ∧ w.toNat / 2 ^ 25 % 2 = 0 ∧ w.toNat / 2 ^ 21 % 16 = op.code.toNat ∧
      w.toNat / 2 ^ 4 % 2 = 1
  | .b, w => w.toNat / 2 ^ 26 % 4 = 2 ∧ w.toNat / 2 ^ 25 % 2 = 0
  | .bl, w => w.toNat / 2 ^ 26 % 4 = 2 ∧ w.toNat / 2 ^ 25 % 2 = 1

/-- A mask of `b` ones from bit `a` on keeps one field. -/
theorem nat_and_field (n a b : Nat) : n &&& (2 ^ b - 1) * 2 ^ a = n / 2 ^ a % 2 ^ b * 2 ^ a := by
  apply Nat.eq_of_testBit_eq
  intro i
  by_cases h : a ≤ i
  · simp [Nat.testBit_mul_two_pow, Nat.testBit_two_pow_sub_one, Nat.testBit_mod_two_pow, Nat.testBit_div_two_pow, h,
      Bool.and_comm]
  · simp [Nat.testBit_mul_two_pow, h]

theorem toNat_and_immMask (w : Word) : (w &&& 0x0FE00000#32).toNat = w.toNat / 2 ^ 21 % 2 ^ 7 * 2 ^ 21 :=
  nat_and_field w.toNat 21 7

theorem toNat_and_branchMask (w : Word) : (w &&& 0x0E000000#32).toNat = w.toNat / 2 ^ 25 % 2 ^ 3 * 2 ^ 25 :=
  nat_and_field w.toNat 25 3

/-- The mask of the register forms is that of the immediate form and `w[4]`. -/
theorem toNat_and_registerMask (w : Word) :
    (w &&& 0x0FE00010#32).toNat = w.toNat / 2 ^ 21 % 2 ^ 7 * 2 ^ 21 + w.toNat / 2 ^ 4 % 2 * 2 ^ 4 := by
  rw [← toNat_clear_add_keep _ 0x10#32, BitVec.and_assoc, BitVec.and_assoc]
  exact congrArg₂ _ (toNat_and_immMask w) (toNat_and_twoPow w (k := 4) (by omega))

/-- Under a row's mask a word is the row's pattern exactly when it has the row's fields. -/
theorem and_mask_eq_pattern_iff (n : RowName) (w : Word) : w &&& n.entry.mask = n.entry.pattern ↔ n.HasFields w := by
  rw [← BitVec.toNat_inj]
  cases n <;> simp only [RowName.entry, RowName.HasFields, toNat_and_immMask, toNat_and_registerMask, toNat_and_branchMask,
    toNat_append_eq, BitVec.toNat_ofNat] <;> omega

theorem condLegal_iff (w : Word) : condLegal w = true ↔ w.toNat / 2 ^ 28 ≠ 15 := by
  have hw := w.isLt
  simp only [condLegal, bne_iff_ne, ne_eq, ← BitVec.toNat_inj, toNat_field, BitVec.toNat_ofNat]
  omega

theorem matchesWord_entry_iff (n : RowName) (w : Word) :
    n.entry.matchesWord w = true ↔ w.toNat / 2 ^ 28 ≠ 15 ∧ n.HasFields w := by
  rw [OpcodeRow.matchesWord, Bool.and_eq_true, beq_iff_eq, and_mask_eq_pattern_iff, condLegal_iff, and_comm]

/-! ## The row decoding gives -/

/-- The row of a body: `Instr.row` reads nothing else of an instruction. -/
def Body.row : Body → RowName
  | .dataProcessing op _ _ _ (.immediate _ _) => .imm op
  | .dataProcessing op _ _ _ (.shiftByImm _ _ _) => .rsi op
  | .dataProcessing op _ _ _ (.shiftByReg _ _ _) => .rsr op
  | .branch false _ => .b
  | .branch true _ => .bl

theorem row_ofInstruction (i : Instruction) : (Instr.ofInstruction i).row = i.body.row := by
  rw [Instr.row, toInstruction_ofInstruction]
  rfl

theorem opcodeOfCode_eq_iff (b : BitVec 4) (op : Opcode) : Opcode.ofCode b = op ↔ b.toNat = op.code.toNat := by
  rw [BitVec.toNat_inj]
  constructor
  · rintro rfl
    exact (opcodeCode_ofCode b).symm
  · rintro rfl
    exact opcodeOfCode_code op

/-- A word of class 00 is of the row that its I bit, `w[4]` and opcode select (R52 to R56). -/
theorem row_dataProcessing_iff {w : Word} (hclass : w.toNat / 2 ^ 26 % 4 = 0) (s : Bool) (rn rd : Reg) (n : RowName) :
    (Body.dataProcessing (Opcode.ofCode (w.extractLsb' 21 4)) s rn rd (decodeOperand w)).row = n ↔ n.HasFields w := by
  have h25 := toNat_getLsbD w 25
  have h4 := toNat_getLsbD w 4
  have hop := toNat_field w 21 4
  cases hi : w.getLsbD 25 with
  | true =>
    rw [hi, Bool.toNat_true] at h25
    rw [decodeOperand_immediate hi]
    cases n <;> simp only [Body.row, RowName.HasFields, RowName.imm.injEq, reduceCtorEq, false_iff, opcodeOfCode_eq_iff] <;> omega
  | false =>
    rw [hi, Bool.toNat_false] at h25
    cases hr : w.getLsbD 4 with
    | true =>
      rw [hr, Bool.toNat_true] at h4
      rw [decodeOperand_shiftByReg hi hr]
      cases n <;> simp only [Body.row, RowName.HasFields, RowName.rsr.injEq, reduceCtorEq, false_iff, opcodeOfCode_eq_iff] <;> omega
    | false =>
      rw [hr, Bool.toNat_false] at h4
      rw [decodeOperand_shiftByImm hi hr]
      cases n <;> simp only [Body.row, RowName.HasFields, RowName.rsi.injEq, reduceCtorEq, false_iff, opcodeOfCode_eq_iff] <;> omega

/-- A word of class 10 is of the row that its L bit selects (R55). -/
theorem row_branch_iff {w : Word} (hclass : w.toNat / 2 ^ 26 % 4 = 2) (offset : BitVec 24) (n : RowName) :
    (Body.branch (w.getLsbD 25) offset).row = n ↔ n.HasFields w := by
  have h25 := toNat_getLsbD w 25
  cases hl : w.getLsbD 25 with
  | true =>
    rw [hl, Bool.toNat_true] at h25
    cases n <;> simp only [Body.row, RowName.HasFields, reduceCtorEq, false_iff, true_iff] <;> omega
  | false =>
    rw [hl, Bool.toNat_false] at h25
    cases n <;> simp only [Body.row, RowName.HasFields, reduceCtorEq, false_iff, true_iff] <;> omega

/-- A word that has the fields of a row is not of a reserved class (R50). -/
theorem RowName.HasFields.class_not_reserved {n : RowName} {w : Word} (h : n.HasFields w) :
    w.toNat / 2 ^ 26 % 4 = 0 ∨ w.toNat / 2 ^ 26 % 4 = 2 := by
  cases n with
  | imm | rsi | rsr => exact .inl h.1
  | b | bl => exact .inr h.1

/-- Decoding gives an instruction of a row exactly when the condition is legal and the word has the fields of the row. -/
theorem decodes_to_row_iff (w : Word) (n : RowName) :
    (∃ i, decode w = .ok i ∧ i.row = n) ↔ w.toNat / 2 ^ 28 ≠ 15 ∧ n.HasFields w := by
  obtain ⟨hcond, hd⟩ | ⟨hcond, hclass, hd⟩ | ⟨hcond, hclass, c, body, _, hbody, hd⟩ := decode_cases w
  · simp only [hd, reduceCtorEq, false_and, exists_false, hcond, ne_eq, not_true_eq_false]
  · have hn : ¬n.HasFields w := fun h => by
      have := h.class_not_reserved
      omega
    simp only [hd, reduceCtorEq, false_and, exists_false, hn, and_false]
  · simp only [hd, Except.ok.injEq, exists_eq_left', row_ofInstruction, hcond, ne_eq, not_false_eq_true, true_and]
    obtain hclass | hclass := hclass
    · obtain rfl := Except.ok.inj ((decodeBody_dataProcessing hclass).symm.trans hbody)
      exact row_dataProcessing_iff hclass _ _ _ n
    · obtain rfl := Except.ok.inj ((decodeBody_branch hclass).symm.trans hbody)
      exact row_branch_iff hclass _ n

/-- Settles O6: both sides say that the condition is not 15 and that the word has the fields of the row. -/
theorem opcodeTableAgreesWithDecoder : Obligations.OpcodeTableAgreesWithDecoder := by
  unfold Obligations.OpcodeTableAgreesWithDecoder
  intro w n
  simp only [← and_assoc, mem_opcodeTable_and_name_iff, exists_eq_left, matchesWord_entry_iff, decodes_to_row_iff]

end Sys2Proof
end
